-- ==== Sys2Proof/Word.lean ====
section
/-! DEFINITION. The storage unit of the FDU: one 32-bit word (spec 10_state.md R20; every location of the
register window and every command is one such word, 20_memory.md R51, 30_encoding.md R70). -/

namespace Sys2Proof

/-- A 32-bit word: a limb word, a command word, RES or STATUS. -/
abbrev Word := BitVec 32

end Sys2Proof
end

