-- ==== Sys2Proof/Syntax.lean ====
section
/-! DEFINITION. The eleven commands of spec/opcode_table.json (30_encoding.md R74), one constructor each, with the
operands their formats use (R72). -/

namespace Sys2Proof

/-- A decimal register number, `D0` .. `D7` (10_state.md R26). -/
abbrev Reg := Fin 8

/-- The four rounding modes, in the order of their numbers 0 to 3 (30_encoding.md R73). -/
inductive Mode where
  | towards
  | away
  | halfDown
  | halfUp
deriving DecidableEq, Repr

/-- A command of the FDU. Operand names are the fields of R71: `rd` destination, `rs1` and `rs2` sources (NUMERIC's
`x` and `y`), `rr` the second destination of DIVREM. -/
inductive Instr where
  /-- ADD, format R3 (R110). -/
  | add (rd rs1 rs2 : Reg)
  /-- SUB, format R3 (R111). -/
  | sub (rd rs1 rs2 : Reg)
  /-- MUL, format R3 (R120). -/
  | mul (rd rs1 rs2 : Reg)
  /-- DIV, format R3 (R130). -/
  | div (rd rs1 rs2 : Reg)
  /-- DIVREM, format R4 (R160): quotient to `rd`, remainder to `rr`. -/
  | divrem (rd rr rs1 rs2 : Reg)
  /-- ROUND, format RI (R150); `places` is the sign-extended 8-bit immediate (R73). -/
  | round (rd rs1 : Reg) (places : Int) (mode : Mode)
  /-- QUANTA, format R3M (R161). -/
  | quanta (rd rs1 rs2 : Reg) (mode : Mode)
  /-- CMP, format C (R170). -/
  | cmp (rs1 rs2 : Reg)
  /-- EQ, format C (R171). -/
  | eq (rs1 rs2 : Reg)
  /-- NEG, format R2 (R180). -/
  | neg (rd rs1 : Reg)
  /-- ABS, format R2 (R181). -/
  | abs (rd rs1 : Reg)
deriving DecidableEq, Repr

end Sys2Proof
end

