-- ==== Sys2Proof/WellFormed.lean ====
section
/-! DEFINITION. Which terms of `Instr` are commands of the FDU: the two conditions that the operand types do not
already carry. -/

namespace Sys2Proof

/-- `i` is a command the encoding can express: DIVREM's destinations differ (30_encoding.md R75 (c)) and ROUND's
`places` is in -128..127 (R73). -/
def Instr.wf (i : Instr) : Bool :=
  match i with
  | .add _ _ _ => true
  | .sub _ _ _ => true
  | .mul _ _ _ => true
  | .div _ _ _ => true
  | .divrem rd rr _ _ => decide (rd ≠ rr)
  | .round _ _ places _ => decide (-128 ≤ places) && decide (places ≤ 127)
  | .quanta _ _ _ _ => true
  | .cmp _ _ => true
  | .eq _ _ => true
  | .neg _ _ => true
  | .abs _ _ => true

end Sys2Proof
end

