-- ==== Sys2Proof/Decode.lean ====
section
/-! DEFINITION. The command word (30_encoding.md): its fields (R71), the decoder, total on every 32-bit word and
rejecting by name (R72 to R75), and the encoder. A command crosses the bus as one whole 32-bit word, so the FDU has
no byte order (20_memory.md R55) and the decoder takes the word. -/

namespace Sys2Proof

/-- The fields of a command word, R71, most significant first. -/
@[ext]
structure Fields where
  op : BitVec 8
  rd : BitVec 3
  rs1 : BitVec 3
  rs2 : BitVec 3
  rr : BitVec 3
  mode : BitVec 2
  zero : BitVec 2
  places : BitVec 8
deriving DecidableEq, Repr

/-- The fields of the word `c`: `op = c[31:24]`, `rd = c[23:21]`, `rs1 = c[20:18]`, `rs2 = c[17:15]`,
`rr = c[14:12]`, `mode = c[11:10]`, `zero = c[9:8]`, `places = c[7:0]` (R71). -/
def fieldsOf (c : Word) : Fields :=
  { op := c.extractLsb' 24 8
    rd := c.extractLsb' 21 3
    rs1 := c.extractLsb' 18 3
    rs2 := c.extractLsb' 15 3
    rr := c.extractLsb' 12 3
    mode := c.extractLsb' 10 2
    zero := c.extractLsb' 8 2
    places := c.extractLsb' 0 8 }

/-- The word that the fields of R71 make up. -/
def wordOf (f : Fields) : Word :=
  f.op ++ f.rd ++ f.rs1 ++ f.rs2 ++ f.rr ++ f.mode ++ f.zero ++ f.places

/-- The rounding mode of the 2-bit field: 0 Towards, 1 Away, 2 HalfDown, 3 HalfUp (R73); every value is legal. -/
def modeOfBits (m : BitVec 2) : Mode :=
  if m = 0 then .towards else if m = 1 then .away else if m = 2 then .halfDown else .halfUp

/-- The number of a rounding mode (R73). -/
def bitsOfMode : Mode → BitVec 2
  | .towards => 0
  | .away => 1
  | .halfDown => 2
  | .halfUp => 3

/-- Why a word is no command: the three clauses of R75. Their order cannot be observed (60_exceptions.md R233): each
has the one effect of setting `STATUS.ILL`. -/
inductive Illegal where
  /-- R75 (a): `op = 0x00` or `op >= 0x0C`. -/
  | reservedOpcode
  /-- R75 (b): a field that the opcode's format does not use is not zero. -/
  | unusedFieldNonzero
  /-- R75 (c): DIVREM with `rd = rr`. -/
  | equalDestinations
deriving DecidableEq, Repr

/-- `i` when every unused field is zero, R75 (b) otherwise. -/
def requireZero (unusedZero : Bool) (i : Instr) : Except Illegal Instr :=
  if unusedZero then .ok i else .error .unusedFieldNonzero

/-- Format R3: ADD, SUB, MUL, DIV (R72). -/
def zeroR3 (f : Fields) : Bool := f.rr == 0 && f.mode == 0 && f.zero == 0 && f.places == 0
/-- Format R3M: QUANTA (R72). -/
def zeroR3M (f : Fields) : Bool := f.rr == 0 && f.zero == 0 && f.places == 0
/-- Format R4: DIVREM (R72). -/
def zeroR4 (f : Fields) : Bool := f.mode == 0 && f.zero == 0 && f.places == 0
/-- Format RI: ROUND (R72). -/
def zeroRI (f : Fields) : Bool := f.rs2 == 0 && f.rr == 0 && f.zero == 0
/-- Format R2: NEG, ABS (R72). -/
def zeroR2 (f : Fields) : Bool := f.rs2 == 0 && f.rr == 0 && f.mode == 0 && f.zero == 0 && f.places == 0
/-- Format C: CMP, EQ (R72). -/
def zeroC (f : Fields) : Bool := f.rd == 0 && f.rr == 0 && f.mode == 0 && f.zero == 0 && f.places == 0

/-- The command that the fields stand for (R72, R74), or the clause of R75 that rejects them. -/
def decodeFields (f : Fields) : Except Illegal Instr :=
  match f.op.toNat with
  | 0x01 => requireZero (zeroR3 f) (.add f.rd.toFin f.rs1.toFin f.rs2.toFin)
  | 0x02 => requireZero (zeroR3 f) (.sub f.rd.toFin f.rs1.toFin f.rs2.toFin)
  | 0x03 => requireZero (zeroR3 f) (.mul f.rd.toFin f.rs1.toFin f.rs2.toFin)
  | 0x04 => requireZero (zeroR3 f) (.div f.rd.toFin f.rs1.toFin f.rs2.toFin)
  | 0x05 =>
    if f.rd = f.rr then .error .equalDestinations
    else requireZero (zeroR4 f) (.divrem f.rd.toFin f.rr.toFin f.rs1.toFin f.rs2.toFin)
  | 0x06 => requireZero (zeroRI f) (.round f.rd.toFin f.rs1.toFin f.places.toInt (modeOfBits f.mode))
  | 0x07 => requireZero (zeroR3M f) (.quanta f.rd.toFin f.rs1.toFin f.rs2.toFin (modeOfBits f.mode))
  | 0x08 => requireZero (zeroC f) (.cmp f.rs1.toFin f.rs2.toFin)
  | 0x09 => requireZero (zeroC f) (.eq f.rs1.toFin f.rs2.toFin)
  | 0x0A => requireZero (zeroR2 f) (.neg f.rd.toFin f.rs1.toFin)
  | 0x0B => requireZero (zeroR2 f) (.abs f.rd.toFin f.rs1.toFin)
  | _ => .error .reservedOpcode

/-- Decoding a word written to CMD: one of the eleven commands or illegal, nothing else (R75). -/
def decode (c : Word) : Except Illegal Instr := decodeFields (fieldsOf c)

/-- The register number as a field. -/
def regBits (r : Reg) : BitVec 3 := BitVec.ofFin r

/-- The fields of a command: format and opcode of R72 and R74, every unused field 0. -/
def encodeFields (i : Instr) : Fields :=
  match i with
  | .add rd rs1 rs2 => { op := 0x01, rd := regBits rd, rs1 := regBits rs1, rs2 := regBits rs2, rr := 0, mode := 0, zero := 0, places := 0 }
  | .sub rd rs1 rs2 => { op := 0x02, rd := regBits rd, rs1 := regBits rs1, rs2 := regBits rs2, rr := 0, mode := 0, zero := 0, places := 0 }
  | .mul rd rs1 rs2 => { op := 0x03, rd := regBits rd, rs1 := regBits rs1, rs2 := regBits rs2, rr := 0, mode := 0, zero := 0, places := 0 }
  | .div rd rs1 rs2 => { op := 0x04, rd := regBits rd, rs1 := regBits rs1, rs2 := regBits rs2, rr := 0, mode := 0, zero := 0, places := 0 }
  | .divrem rd rr rs1 rs2 =>
    { op := 0x05, rd := regBits rd, rs1 := regBits rs1, rs2 := regBits rs2, rr := regBits rr, mode := 0, zero := 0, places := 0 }
  | .round rd rs1 places mode =>
    { op := 0x06, rd := regBits rd, rs1 := regBits rs1, rs2 := 0, rr := 0, mode := bitsOfMode mode, zero := 0, places := BitVec.ofInt 8 places }
  | .quanta rd rs1 rs2 mode =>
    { op := 0x07, rd := regBits rd, rs1 := regBits rs1, rs2 := regBits rs2, rr := 0, mode := bitsOfMode mode, zero := 0, places := 0 }
  | .cmp rs1 rs2 => { op := 0x08, rd := 0, rs1 := regBits rs1, rs2 := regBits rs2, rr := 0, mode := 0, zero := 0, places := 0 }
  | .eq rs1 rs2 => { op := 0x09, rd := 0, rs1 := regBits rs1, rs2 := regBits rs2, rr := 0, mode := 0, zero := 0, places := 0 }
  | .neg rd rs1 => { op := 0x0A, rd := regBits rd, rs1 := regBits rs1, rs2 := 0, rr := 0, mode := 0, zero := 0, places := 0 }
  | .abs rd rs1 => { op := 0x0B, rd := regBits rd, rs1 := regBits rs1, rs2 := 0, rr := 0, mode := 0, zero := 0, places := 0 }

/-- The command word of an instruction (R71, R72, R74). -/
def encode (i : Instr) : Word := wordOf (encodeFields i)

/-- The host's question about one opcode-table row: `w` is the command word, bit 0 its least significant bit. -/
def decodeTableWord (nbits w : Nat) : Option Instr :=
  match decode (BitVec.ofNat 32 (w % 2 ^ nbits)) with
  | .ok i => some i
  | .error _ => none

end Sys2Proof
end

