-- ==== Sys2Proof/Config.lean ====
section
/-! DEFINITION. What the spec fixes for this hardware: the numeric parameters of 00_scope.md R6 and R7, and the
alternative-reading switches of 00_scope.md R8 at the spec's own settings. -/

namespace Sys2Proof.Config

/-- `RADIX` of R6: a limb is one base-10^9 digit. -/
abbrev radix : Nat := 1000000000

/-- 10^36: the scale of `N(v)` (R10), one unit of the last of the `FDIG = 36` fractional places (R6). -/
abbrev fracScale : Nat := 1000000000000000000000000000000000000

/-- `MAXN + 1 = 10^54` (R10): the first magnitude that 18 integer and 36 fractional digits cannot hold. -/
abbrev capacity : Nat := 1000000000000000000000000000000000000000000000000000000

/-- `FDIG` of R6: fractional decimal places of a value. -/
abbrev fracDigits : Nat := 36

/-- The register window's size in bytes (R7, R50). -/
abbrev windowBytes : Nat := 0x200

/-- The four alternative-reading switches of R8. The value functions of the model take them as an argument, so that
both readings of NUMERIC are in the model; the meanings of the commands run at `switches`. -/
structure Switches where
  /-- `MUL_UNF_IN` (R122, D22): MUL also copies operand underflow. -/
  mulUnfIn : Bool := false
  /-- `ROUND_UNF_IN` (R152, D23): ROUND copies the operand's underflow. -/
  roundUnfIn : Bool := false
  /-- `HALFDOWN_STICKY` (R154, D24): a HalfDown tie with nonzero lower limbs rounds up. -/
  halfDownSticky : Bool := false
  /-- `HALFUP_PLUS_ONE` (R153, D37): HalfUp rounds up when `rem + 1 >= W/2`. -/
  halfUpPlusOne : Bool := false
deriving DecidableEq, Repr

/-- The setting the spec decides: "each `false` for the spec's decision" (R8). Log entry 3. -/
def switches : Switches := {}

end Sys2Proof.Config
end

