-- ==== Sys2Proof/Machine/State.lean ====
section
/-! DEFINITION. The state of the FDU: all of 10_state.md R35 (`D0..D7`, `RES`, `STATUS.ILL`), and two fields of the
model's own that stand for the host at the bus (log entry 1). There is no memory: the 512-byte register window is the
whole address space and every location of it is a register (20_memory.md R50, R51). -/

namespace Sys2Proof.Machine

/-- A value as a decimal register holds it: six 32-bit limb words, limb 0 most significant (R22, R26). Every bit
pattern can stand here (R21, R27), so the words themselves are the state and the record view of R22 is computed. -/
structure Value where
  limb0 : Word
  limb1 : Word
  limb2 : Word
  limb3 : Word
  limb4 : Word
  limb5 : Word
deriving DecidableEq, Repr

/-- The value with all six words 0 (00_scope.md R11): `ZERO`. -/
def zeroValue : Value := ⟨0, 0, 0, 0, 0, 0⟩

/-- What the outside world can do to the FDU: a bus transaction (20_memory.md R52, R53), an access that is no
transaction of the interface (R54), or reset (70_reset_and_hazards.md R250). Offsets are bytes from the window's base. -/
inductive HostEvent where
  /-- `BusRead(off)`, a 32-bit access. -/
  | busRead (off : Nat)
  /-- `BusWrite(off, w)`, a 32-bit access. -/
  | busWrite (off : Nat) (w : Word)
  /-- An access of another width than 4 bytes (byte, halfword, wider than a word): no transaction (R54). -/
  | otherWidth (bytes off : Nat)
  /-- The reset input (R250). -/
  | reset
deriving DecidableEq, Repr

/-- Why the machine can be stuck. -/
inductive Fault where
  /-- Raised by a bus access of a width other than 32 bits, at an offset that is no multiple of 4, or outside the
  512-byte window: "a model has no step for one" (20_memory.md R54, 93_implementation_defined.md U6). Safe: the spec
  gives such an access no effect at all. -/
  | notATransaction
deriving DecidableEq, Repr

/-- Why the model refuses a command. -/
inductive Refusal where
  /-- An instruction without a meaning. No arm of `exec` answers with it. Safe. -/
  | notModelled (mnemonic : String)
  /-- Raised by every command that reads a register whose value is not well-formed (R25): "no specified result: a
  model refuses it" (10_state.md R27, 93_implementation_defined.md U1). Safe: the spec gives no effect. -/
  | illFormedSource (r : Reg)
deriving DecidableEq, Repr

/-- The whole state. -/
structure State where
  /-- `D0` .. `D7` (R26). -/
  regs : Vector Value 8
  /-- `RES` (R30). -/
  res : Word
  /-- `STATUS.ILL` (R31); STATUS has no other state. -/
  ill : Bool
  /-- The model's own: what the host does from here on, oldest first. A step takes the first. -/
  host : List HostEvent
  /-- The model's own: the word the last transaction returned, if it was a read (R52). -/
  answer : Option Word
deriving DecidableEq, Repr

/-- The machine right after reset (R36, R250): every limb word, `RES` and `STATUS.ILL` are 0. The host has issued
nothing yet. -/
def State.reset : State :=
  { regs := Vector.replicate 8 zeroValue
    res := 0
    ill := false
    host := []
    answer := none }

end Sys2Proof.Machine
end

