-- ==== Sys2Proof/Machine/Operands.lean ====
section
/-! DEFINITION. What a command reads from a value: the limb word's accessors (10_state.md R21), the record view
(R22), magnitudes as naturals (00_scope.md R10) and the packing of a result. -/

namespace Sys2Proof.Machine

open Config

/-! ### The limb word (R20, R21) -/

/-- `magnitude(w) = w[30:0]`. -/
def magnitude (w : Word) : BitVec 31 := w.extractLsb' 0 31

/-- `flag(w) = w[31]`. -/
def flag (w : Word) : Bool := w.getLsbD 31

/-- `setMagnitude(w, v) = w[31] ++ v[30:0]`: the flag bit is kept, `v` is not validated. -/
def setMagnitude (w v : Word) : Word := w.extractLsb' 31 1 ++ v.extractLsb' 0 31

/-- `setFlag(w, b) = b ++ w[30:0]`. -/
def setFlag (w : Word) (b : Bool) : Word := BitVec.ofBool b ++ w.extractLsb' 0 31

/-- `mag(w)` as a natural number (R10). -/
def mag (w : Word) : Nat := (magnitude w).toNat

/-- The limb word with flag `b` and magnitude `m`. -/
def limbWord (b : Bool) (m : Nat) : Word := setFlag (setMagnitude 0 (BitVec.ofNat 32 m)) b

/-! ### Six magnitudes -/

/-- An array of six magnitudes, limb 0 most significant (R10): the operands and results of the limb-level units.
Naturals, because "all arithmetic in pseudocode is on unbounded integers" (R9). -/
structure Mags where
  m0 : Nat
  m1 : Nat
  m2 : Nat
  m3 : Nat
  m4 : Nat
  m5 : Nat
deriving DecidableEq, Repr

/-- The six limbs, most significant first. -/
def Mags.toList (a : Mags) : List Nat := [a.m0, a.m1, a.m2, a.m3, a.m4, a.m5]

/-- `m[i]` for `i = 0..5`. -/
def Mags.get (a : Mags) (i : Nat) : Nat :=
  match i with
  | 0 => a.m0
  | 1 => a.m1
  | 2 => a.m2
  | 3 => a.m3
  | 4 => a.m4
  | 5 => a.m5
  | _ => 0

/-- `m[i] <- n` for `i = 0..5`. -/
def Mags.set (a : Mags) (i n : Nat) : Mags :=
  match i with
  | 0 => { a with m0 := n }
  | 1 => { a with m1 := n }
  | 2 => { a with m2 := n }
  | 3 => { a with m3 := n }
  | 4 => { a with m4 := n }
  | 5 => { a with m5 := n }
  | _ => a

/-- `N` of R10: the six limbs as a natural number scaled by 10^36. -/
def Mags.toNat (a : Mags) : Nat :=
  ((((a.m0 * radix + a.m1) * radix + a.m2) * radix + a.m3) * radix + a.m4) * radix + a.m5

/-- The number that base-10^9 limbs denote, most significant first, whatever their count. -/
def limbsValue (l : List Nat) : Nat := l.foldl (fun n d => n * radix + d) 0

/-- `limbs(n)` of R10: `limbs(n)[i] = (n div RADIX^(5-i)) mod RADIX`. -/
def limbs (n : Nat) : Mags :=
  { m0 := n / radix ^ 5 % radix
    m1 := n / radix ^ 4 % radix
    m2 := n / radix ^ 3 % radix
    m3 := n / radix ^ 2 % radix
    m4 := n / radix % radix
    m5 := n % radix }

/-- All six magnitudes 0. -/
def zeroMags : Mags := ⟨0, 0, 0, 0, 0, 0⟩

/-- All six magnitudes `RADIX - 1`: the canonical maximum (R6). -/
def maxMags : Mags := ⟨radix - 1, radix - 1, radix - 1, radix - 1, radix - 1, radix - 1⟩

/-- Every magnitude is below the radix (R24). -/
def Mags.inRange (a : Mags) : Bool :=
  decide (a.m0 < radix) && decide (a.m1 < radix) && decide (a.m2 < radix) && decide (a.m3 < radix)
    && decide (a.m4 < radix) && decide (a.m5 < radix)

/-! ### The record view of a value (R22) -/

/-- `v.neg`, the sign: `limb[0][31]`. -/
def Value.neg (v : Value) : Bool := flag v.limb0
/-- `v.nan`: `limb[1][31]`. -/
def Value.nan (v : Value) : Bool := flag v.limb1
/-- `v.ovf`, overflow: `limb[2][31]`. -/
def Value.ovf (v : Value) : Bool := flag v.limb2
/-- `v.unf`, underflow (inexact): `limb[3][31]`. -/
def Value.unf (v : Value) : Bool := flag v.limb3
/-- The reserved flag bits `limb[4][31]` and `limb[5][31]` are both 0. -/
def Value.reservedZero (v : Value) : Bool := !flag v.limb4 && !flag v.limb5
/-- `v.m[0..5]`. -/
def Value.mags (v : Value) : Mags :=
  ⟨mag v.limb0, mag v.limb1, mag v.limb2, mag v.limb3, mag v.limb4, mag v.limb5⟩
/-- `N(v)` of R10. -/
def Value.toNat (v : Value) : Nat := v.mags.toNat

/-- `v.neg <- b`, every other bit kept. -/
def Value.setNeg (v : Value) (b : Bool) : Value := { v with limb0 := setFlag v.limb0 b }

/-- The limb word `limb[i]` of a value, `i = 0..5`. -/
def Value.limb (v : Value) (i : Fin 6) : Word :=
  match i with
  | 0 => v.limb0
  | 1 => v.limb1
  | 2 => v.limb2
  | 3 => v.limb3
  | 4 => v.limb4
  | 5 => v.limb5

/-- `limb[i] <- w`: all 32 bits, the other five words kept. -/
def Value.setLimb (v : Value) (i : Fin 6) (w : Word) : Value :=
  match i with
  | 0 => { v with limb0 := w }
  | 1 => { v with limb1 := w }
  | 2 => { v with limb2 := w }
  | 3 => { v with limb3 := w }
  | 4 => { v with limb4 := w }
  | 5 => { v with limb5 := w }

/-! ### Building a value (R11) -/

/-- The value with the four flags and six magnitudes given; the reserved flag bits are 0 (R11, R22). -/
def packValue (neg nan ovf unf : Bool) (m : Mags) : Value :=
  { limb0 := limbWord neg m.m0
    limb1 := limbWord nan m.m1
    limb2 := limbWord ovf m.m2
    limb3 := limbWord unf m.m3
    limb4 := limbWord false m.m4
    limb5 := limbWord false m.m5 }

/-- A result that is neither NaN nor overflowed. -/
def finite (neg unf : Bool) (m : Mags) : Value := packValue neg false false unf m

/-- `NAN` of R11: `nan = 1` and every other bit 0. -/
def nanValue : Value := packValue false true false false zeroMags

/-- `OVF(s, u)` of R11: the canonical overflow. -/
def overflowValue (s u : Bool) : Value := packValue s false true u maxMags

/-- `mk(s, u, n)` of R11, for `n <= MAXN`. -/
def mkValue (s u : Bool) (n : Nat) : Value := finite s u (limbs n)

end Sys2Proof.Machine
end

