-- ==== Sys2Proof/Machine/Flags.lean ====
section
/-! DEFINITION. The flag logic of a value: the query predicates (40_value_primitives.md R90, R91), well-formedness
(10_state.md R25) and `shouldBeNegative` (R92). The FDU has no other condition codes (R32). -/

namespace Sys2Proof.Machine

open Config

/-- `isNaN(v)` (R90). -/
def Value.isNaN (v : Value) : Bool := v.nan
/-- `isOverflow(v)` (R90). -/
def Value.isOverflow (v : Value) : Bool := v.ovf
/-- `isUnderflow(v)` (R90). -/
def Value.isUnderflow (v : Value) : Bool := v.unf
/-- `isNegative(v)` (R90). -/
def Value.isNegative (v : Value) : Bool := v.neg
/-- All six magnitudes are 0. -/
def Mags.isZero (a : Mags) : Bool :=
  a.m0 == 0 && a.m1 == 0 && a.m2 == 0 && a.m3 == 0 && a.m4 == 0 && a.m5 == 0
/-- `isZero(v)` (R90): magnitudes only, whatever the flags. -/
def Value.isZero (v : Value) : Bool := v.mags.isZero
/-- "exact zero" (R91): zero and not underflowed. -/
def Value.isExactZero (v : Value) : Bool := v.isZero && !v.unf

/-- `WF(v)` of R25: NaN, or (a) every magnitude below 10^9, (b) the reserved flag bits 0, (c) overflow only with the
canonical maximum, (d) no negative exact zero. -/
def Value.wf (v : Value) : Bool :=
  v.nan ||
    (v.mags.inRange && v.reservedZero && (!v.ovf || v.mags == maxMags) && !(v.neg && v.isZero && !v.unf))

/-- `shouldBeNegative(x, signWanted)` (R92). -/
def sbn (x : Value) (want : Bool) : Bool :=
  if x.nan then false
  else if x.isZero then (if x.unf then want else false)
  else want

/-- `z.neg <- sbn(z, s)`: the last step of MUL, DIV and ROUND. -/
def withSign (z : Value) (s : Bool) : Value := z.setNeg (sbn z s)

end Sys2Proof.Machine
end

