-- ==== Sys2Proof/Machine/Ops.lean ====
section
/-! DEFINITION. The named operations: the limb-level adder, subtractor and comparator (40_value_primitives.md R93 to
R95), the reads and writes of the registers, the illegal-command bit, the reading of a command's sources, and the bus
(20_memory.md R51 to R54). The FDU takes no exception of any kind and has none to return from (60_exceptions.md R230,
R234, R235); what it has in their place is `State.raiseIll`. -/

namespace Sys2Proof.Machine

open Config

/-! ### The six-limb adder, subtractor and comparator -/

/-- One cell of the adder (R93): sum limb and carry out. -/
def addCell (a b c : Nat) : Nat × Nat :=
  let t := a + b + c
  if t ≥ radix then (t - radix, 1) else (t, 0)

/-- `AddMag(a, b) -> (z, carry)` (R93): the carry runs from limb 5 to limb 0. -/
def addMag (a b : Mags) : Mags × Nat :=
  let r5 := addCell a.m5 b.m5 0
  let r4 := addCell a.m4 b.m4 r5.2
  let r3 := addCell a.m3 b.m3 r4.2
  let r2 := addCell a.m2 b.m2 r3.2
  let r1 := addCell a.m1 b.m1 r2.2
  let r0 := addCell a.m0 b.m0 r1.2
  (⟨r0.1, r1.1, r2.1, r3.1, r4.1, r5.1⟩, r0.2)

/-- One cell of the subtractor (R94): difference limb and borrow out. -/
def subCell (a b br : Nat) : Nat × Nat :=
  if a < b + br then (a + radix - (b + br), 1) else (a - (b + br), 0)

/-- `SubMag(a, b) -> (z, borrow)` (R94): `a - b`, the borrow running from limb 5 to limb 0. -/
def subMag (a b : Mags) : Mags × Nat :=
  let r5 := subCell a.m5 b.m5 0
  let r4 := subCell a.m4 b.m4 r5.2
  let r3 := subCell a.m3 b.m3 r4.2
  let r2 := subCell a.m2 b.m2 r3.2
  let r1 := subCell a.m1 b.m1 r2.2
  let r0 := subCell a.m0 b.m0 r1.2
  (⟨r0.1, r1.1, r2.1, r3.1, r4.1, r5.1⟩, r0.2)

/-- The comparator's scan, most significant limb first. -/
def cmpLimbs : List Nat → List Nat → Int
  | a :: as, b :: bs => if a > b then 1 else if a < b then -1 else cmpLimbs as bs
  | _, _ => 0

/-- `CmpMag(a, b)` (R95): -1, 0 or +1. It looks at no flag. -/
def cmpMag (a b : Mags) : Int := cmpLimbs a.toList b.toList

/-! ### Registers -/

/-- `D[r]` (R12). -/
def State.reg (s : State) (r : Reg) : Value := s.regs[r]

/-- `D[r] <- v` (R12): all six words. -/
def State.setReg (s : State) (r : Reg) (v : Value) : State := { s with regs := s.regs.set r v }

/-- `RES <- w` (R12). -/
def State.setRes (s : State) (w : Word) : State := { s with res := w }

/-- `STATUS.ILL <- 1` (R12): the whole effect of an illegal command word (30_encoding.md R75, 60_exceptions.md R234). -/
def State.raiseIll (s : State) : State := { s with ill := true }

/-- The word read at STATUS (R31): bit 0 is `ILL`, bits 31:1 are 0. -/
def State.status (s : State) : Word := if s.ill then 1 else 0

/-- Reset (70_reset_and_hazards.md R250): every piece of the FDU's own state gets its reset value. The host's further
events are not the FDU's state and stay. -/
def State.doReset (s : State) : State := { State.reset with host := s.host }

/-! ### A command's sources

Sources are read before any destination is written (30_encoding.md R77): `k` gets the values read at issue. A source
that is not well-formed has no specified result and is refused (10_state.md R27). -/

/-- A command of one source (formats RI, R2). -/
def withSource (a : Reg) (s : State) (k : Value → State) : Host.Outcome State Fault Refusal :=
  if (s.reg a).wf then .next (k (s.reg a)) else .refused (.illFormedSource a)

/-- A command of two sources (formats R3, R3M, R4, C). -/
def withSources (a b : Reg) (s : State) (k : Value → Value → State) : Host.Outcome State Fault Refusal :=
  if (s.reg a).wf then
    if (s.reg b).wf then .next (k (s.reg a) (s.reg b)) else .refused (.illFormedSource b)
  else .refused (.illFormedSource a)

/-! ### The bus -/

/-- What stands at an offset of the window (R51). -/
inductive Location where
  /-- `D[r].limb[i]`, read/write. -/
  | limb (r : Reg) (i : Fin 6)
  /-- `CMD`, write-only. -/
  | cmd
  /-- `RES`, read-only. -/
  | res
  /-- `STATUS`, read-only. -/
  | status
  /-- Reserved: reads 0, ignores writes. -/
  | reserved
deriving DecidableEq, Repr

/-- The offset is one the interface supports (R54): a multiple of 4 inside the window. -/
def isTransaction (off : Nat) : Bool := off % 4 == 0 && decide (off < windowBytes)

/-- The address map (R51), for an offset that is a multiple of 4 in the window: register `r` at `0x20*r`, its limb
word `i` at `4*i` above that. -/
def locate (off : Nat) : Location :=
  if off < 0x100 then
    let i := off % 0x20 / 4
    if h : i < 6 then .limb (Fin.ofNat 8 (off / 0x20)) ⟨i, h⟩ else .reserved
  else if off = 0x100 then .cmd
  else if off = 0x104 then .res
  else if off = 0x108 then .status
  else .reserved

/-- The word a read at `off` returns (R51, R52). A read changes no state. -/
def State.readWord (s : State) (off : Nat) : Word :=
  match locate off with
  | .limb r i => (s.reg r).limb i
  | .cmd => 0
  | .res => s.res
  | .status => s.status
  | .reserved => 0

/-- A write at any offset but CMD's (R53): a limb word takes all 32 bits unvalidated, every other offset ignores it. -/
def State.writeWord (s : State) (off : Nat) (w : Word) : State :=
  match locate off with
  | .limb r i => s.setReg r ((s.reg r).setLimb i w)
  | .cmd => s
  | .res => s
  | .status => s
  | .reserved => s

/-- `BusRead(off)` (R52, R54): the word returned goes into `answer`. -/
def busRead (off : Nat) (s : State) : Host.Outcome State Fault Refusal :=
  if isTransaction off then .next { s with answer := some (s.readWord off) } else .fault .notATransaction

/-- `BusWrite(off, w)` (R53, R54); `issue` is what a write to CMD does. -/
def busWrite (off : Nat) (w : Word) (s : State)
    (issue : Word → State → Host.Outcome State Fault Refusal) : Host.Outcome State Fault Refusal :=
  if isTransaction off then
    (if locate off = .cmd then issue w s else .next (s.writeWord off w))
  else .fault .notATransaction

/-- The host's event is over: it leaves the queue, and no answer stands on the bus yet. -/
def State.takeEvent (s : State) (rest : List HostEvent) : State := { s with host := rest, answer := none }

end Sys2Proof.Machine
end

