-- ==== Sys2Proof/Machine/Sign.lean ====
section
/-! DEFINITION. The sign logic: NEG and ABS (47_negate_abs.md). -/

namespace Sys2Proof.Machine

/-- `NEG(x)` (R180). -/
def Value.negate (x : Value) : Value :=
  if x.nan then nanValue
  else if x.isZero && !x.unf && !x.ovf then x.setNeg false
  else x.setNeg (!x.neg)

/-- `ABS(x)` (R181). -/
def Value.abs (x : Value) : Value :=
  if x.nan then nanValue else x.setNeg false

/-- NEG Dd, Da (R180): `D[d] <- NEG(D[a])`. -/
def execNeg (rd rs1 : Reg) (s : State) : Host.Outcome State Fault Refusal :=
  withSource rs1 s fun x => s.setReg rd x.negate

/-- ABS Dd, Da (R181): `D[d] <- ABS(D[a])`. -/
def execAbs (rd rs1 : Reg) (s : State) : Host.Outcome State Fault Refusal :=
  withSource rs1 s fun x => s.setReg rd x.abs

end Sys2Proof.Machine
end

