-- ==== Sys2Proof/Machine/AddSub.lean ====
section
/-! DEFINITION. ADD and SUB (41_add_sub.md). -/

namespace Sys2Proof.Machine

/-- `ADD(x, y)`, the pseudocode of R110 in its order. -/
def Value.add (x y : Value) : Value :=
  if x.nan || y.nan then nanValue
  else
    let u := x.unf || y.unf
    if x.ovf || y.ovf then
      overflowValue (if x.neg = y.neg then x.neg else x.neg || y.ovf) u
    else if x.neg = y.neg then
      let zc := addMag x.mags y.mags
      if zc.2 = 1 then overflowValue x.neg u else finite x.neg u zc.1
    else
      let k := cmpMag x.mags y.mags
      if k = 0 then zeroValue
      else if k > 0 then finite x.neg u (subMag x.mags y.mags).1
      else finite y.neg u (subMag y.mags x.mags).1

/-- `SUB(x, y) = ADD(x, NEG(y))` (R111). -/
def Value.sub (x y : Value) : Value := x.add y.negate

/-- ADD Dd, Da, Db (R110). -/
def execAdd (rd rs1 rs2 : Reg) (s : State) : Host.Outcome State Fault Refusal :=
  withSources rs1 rs2 s fun x y => s.setReg rd (x.add y)

/-- SUB Dd, Da, Db (R111). -/
def execSub (rd rs1 rs2 : Reg) (s : State) : Host.Outcome State Fault Refusal :=
  withSources rs1 rs2 s fun x y => s.setReg rd (x.sub y)

end Sys2Proof.Machine
end

