-- ==== Sys2Proof/Machine/Compare.lean ====
section
/-! DEFINITION. The comparison logic: CMP and EQ (46_compare_equal.md). -/

namespace Sys2Proof.Machine

/-- `CMP(x, y)`, the pseudocode of R170 in its order. -/
def Value.cmp (x y : Value) : Int :=
  if x.nan then -1
  else if y.nan then 1
  else if x.neg ≠ y.neg then (if x.neg then -1 else 1)
  else
    let c : Int :=
      if x.ovf ≠ y.ovf then (if x.ovf then 1 else -1)
      else
        let k := cmpMag x.mags y.mags
        if k = 0 then
          (if x.unf && !y.unf then 1 else if y.unf && !x.unf then -1 else 0)
        else k
    if x.neg then -c else c

/-- `EQ(x, y)`, the pseudocode of R171 in its order: whole limb words are compared. -/
def Value.eq (x y : Value) : Bool :=
  if x.nan || y.nan then false
  else if x.ovf || y.ovf then false
  else if x.unf || y.unf then false
  else decide (x = y)

/-- CMP Da, Db (R170): RES gets the 32-bit two's-complement image of the result (R30). -/
def execCmp (rs1 rs2 : Reg) (s : State) : Host.Outcome State Fault Refusal :=
  withSources rs1 rs2 s fun x y => s.setRes (BitVec.ofInt 32 (x.cmp y))

/-- EQ Da, Db (R171): RES gets 1 for true, 0 for false (R30). -/
def execEq (rs1 rs2 : Reg) (s : State) : Host.Outcome State Fault Refusal :=
  withSources rs1 rs2 s fun x y => s.setRes (if x.eq y then 1 else 0)

end Sys2Proof.Machine
end

