-- ==== Sys2Proof/Machine/Div.lean ====
section
/-! DEFINITION. DIV (43_div.md): the command rule R130 and the quotient definition R131. The engine of R132 to R138,
"a realisation of R131", stands in DivEngine.lean. -/

namespace Sys2Proof.Machine

open Config

/-- `Engine(a, b)` by its definition R131: the quotient's six limbs and whether a nonzero digit was cut off, or `none`
where the quotient overflows (`eovf`; the limbs are then unspecified and unused). -/
def quotient (a b : Mags) : Option (Mags × Bool) :=
  let A := a.toNat * fracScale
  let Q := A / b.toNat
  if Q ≥ capacity then none else some (limbs Q, decide (A % b.toNat ≠ 0))

/-- `DIV(x, y)`, the pseudocode of R130 in its order. -/
def Value.div (x y : Value) : Value :=
  if x.nan || y.nan || y.isZero then nanValue
  else
    let s := Bool.xor x.neg y.neg
    let uin := x.unf || y.unf
    if x.ovf || y.ovf then overflowValue s uin
    else if x.isZero then withSign (finite false uin zeroMags) s
    else
      match quotient x.mags y.mags with
      | none => overflowValue s uin
      | some (qm, eunf) => withSign (finite false (uin || eunf) qm) s

/-- DIV Dd, Da, Db (R130). -/
def execDiv (rd rs1 rs2 : Reg) (s : State) : Host.Outcome State Fault Refusal :=
  withSources rs1 rs2 s fun x y => s.setReg rd (x.div y)

end Sys2Proof.Machine
end

