-- ==== Sys2Proof/Machine/Mul.lean ====
section
/-! DEFINITION. MUL and the 6x6 schoolbook multiplier (42_mul.md). -/

namespace Sys2Proof.Machine

open Config

/-! ### The accumulator (R121) -/

/-- `acc[k] <- acc[k] + n`. -/
def accAdd (acc : List Nat) (k n : Nat) : List Nat := acc.set k (acc.getD k 0 + n)

/-- `for t = k downto 1`: renormalise modulo the radix (R121). -/
def renormalise (acc : List Nat) : Nat → List Nat
  | 0 => acc
  | t + 1 =>
    if acc.getD (t + 1) 0 ≥ radix then
      renormalise ((accAdd acc t (acc.getD (t + 1) 0 / radix)).set (t + 1) (acc.getD (t + 1) 0 % radix)) t
    else renormalise acc t

/-- One partial product `a[i] * b[j]`: its low part goes to slot `i + j + 1`, its high part to slot `i + j` (R121, the
offset table of R123). -/
def accStep (a b : Mags) (acc : List Nat) (ij : Nat × Nat) : List Nat :=
  let p := a.get ij.1 * b.get ij.2
  let k := ij.1 + ij.2 + 1
  renormalise (accAdd (accAdd acc k (p % radix)) (k - 1) (p / radix)) k

/-- The 36 limb pairs in the order of the two loops, both from 5 down to 0. -/
def limbPairs : List (Nat × Nat) :=
  [5, 4, 3, 2, 1, 0].flatMap fun i => [5, 4, 3, 2, 1, 0].map fun j => (i, j)

/-- `Product(a, b) -> acc[0..11]` (R121): the twelve slots, `acc[0]` most significant. -/
def product (a b : Mags) : List Nat := limbPairs.foldl (accStep a b) (List.replicate 12 0)

/-! ### MUL (R120) -/

/-- `MUL(x, y)`, the pseudocode of R120 in its order; `sw` holds the switch `MUL_UNF_IN` (R122). -/
def Value.mul (sw : Switches) (x y : Value) : Value :=
  if x.nan || y.nan then nanValue
  else
    let s := Bool.xor x.neg y.neg
    let uin := sw.mulUnfIn && (x.unf || y.unf)
    if !y.isZero && (x.ovf || y.ovf) then overflowValue s uin
    else
      let acc := product x.mags y.mags
      if acc.getD 0 0 ≠ 0 || acc.getD 1 0 ≠ 0 then overflowValue s uin
      else
        let lost := acc.getD 8 0 ≠ 0 || acc.getD 9 0 ≠ 0 || acc.getD 10 0 ≠ 0 || acc.getD 11 0 ≠ 0
        withSign (finite false (uin || lost)
          ⟨acc.getD 2 0, acc.getD 3 0, acc.getD 4 0, acc.getD 5 0, acc.getD 6 0, acc.getD 7 0⟩) s

/-- MUL Dd, Da, Db (R120). -/
def execMul (rd rs1 rs2 : Reg) (s : State) : Host.Outcome State Fault Refusal :=
  withSources rs1 rs2 s fun x y => s.setReg rd (x.mul switches y)

end Sys2Proof.Machine
end

