-- ==== Sys2Proof/Machine/Round.lean ====
section
/-! DEFINITION. ROUND, the rounding unit with four modes (44_round.md). -/

namespace Sys2Proof.Machine

open Config

/-- `RoundUp(mode, rem, W, lower)` (R153, R154), with the switches `HALFDOWN_STICKY` and `HALFUP_PLUS_ONE`. -/
def roundUp (sw : Switches) (mode : Mode) (rem W : Nat) (lower : Bool) : Bool :=
  match mode with
  | .towards => false
  | .away => decide (rem ≠ 0) || lower
  | .halfDown => decide (2 * rem > W) || (sw.halfDownSticky && decide (2 * rem = W) && lower)
  | .halfUp => if sw.halfUpPlusOne then decide (rem + 1 ≥ W / 2) else decide (2 * rem ≥ W)

/-- The limb in which the cut falls: `L = 2 + places div 9` (R151). -/
def roundLimb (places : Nat) : Nat := 2 + places / 9

/-- One unit of the last kept place, in that limb: `W = 10^(9 - places mod 9)` (R151). -/
def roundUnit (places : Nat) : Nat := 10 ^ (9 - places % 9)

/-- `m[i]` is nonzero for some `i > L` (R150 line 15). -/
def lowerNonzero (m : Mags) (L : Nat) : Bool := (m.toList.drop (L + 1)).any (· != 0)

/-- `m[i] <- 0` for every `i > L` (R150 line 17). -/
def clearBelow (m : Mags) (L : Nat) : Mags :=
  [1, 2, 3, 4, 5].foldl (fun m i => if L < i then m.set i 0 else m) m

/-- The carry of a round-up from limb `i` leftward (R150 lines 21 to 25): the limbs, and whether a carry left limb 0. -/
def carryLeft (m : Mags) : Nat → Mags × Bool
  | 0 => if m.get 0 ≥ radix then (m.set 0 (m.get 0 - radix), true) else (m, false)
  | i + 1 =>
    if m.get (i + 1) ≥ radix then
      carryLeft ((m.set (i + 1) (m.get (i + 1) - radix)).set i (m.get i + 1)) i
    else (m, false)

/-- Lines 11 to 25 of R150: the rounded magnitudes and the carry out of limb 0. -/
def roundMags (sw : Switches) (m : Mags) (places : Nat) (mode : Mode) : Mags × Bool :=
  let L := roundLimb places
  let W := roundUnit places
  let rem := m.get L % W
  let kept := m.get L - rem
  let cut := clearBelow (m.set L kept) L
  if roundUp sw mode rem W (lowerNonzero m L) then carryLeft (cut.set L (kept + W)) L else (cut, false)

/-- `ROUND(x, places, mode)`, the pseudocode of R150 in its order; `sw` holds the switch `ROUND_UNF_IN` (R152). -/
def Value.round (sw : Switches) (x : Value) (places : Int) (mode : Mode) : Value :=
  if x.nan then nanValue
  else
    let u := sw.roundUnfIn && x.unf
    if x.ovf then overflowValue x.neg u
    else if x.isZero then withSign (finite false u zeroMags) x.neg
    else if places < 0 then nanValue
    else if places ≥ 36 then withSign (finite false u x.mags) x.neg
    else
      let mc := roundMags sw x.mags places.toNat mode
      if mc.2 then overflowValue x.neg u else withSign (finite false u mc.1) x.neg

/-- ROUND Dd, Da, #places, mode (R150). -/
def execRound (rd rs1 : Reg) (places : Int) (mode : Mode) (s : State) : Host.Outcome State Fault Refusal :=
  withSource rs1 s fun x => s.setReg rd (x.round switches places mode)

end Sys2Proof.Machine
end

