-- ==== Sys2Proof/Machine/DivRemQuanta.lean ====
section
/-! DEFINITION. The composite commands DIVREM and QUANTA (45_divrem_quanta.md): compositions of DIV, ROUND, MUL and
SUB. -/

namespace Sys2Proof.Machine

open Config

/-- `DIVREM(x, y)` (R160): quotient and remainder. -/
def Value.divrem (sw : Switches) (x y : Value) : Value × Value :=
  let w := x.div y
  if w.nan || w.ovf then (nanValue, nanValue)
  else
    let q := w.round sw 0 .towards
    (q, x.sub (q.mul sw y))

/-- `QUANTA(x, y, mode)` (R161). -/
def Value.quanta (sw : Switches) (x y : Value) (mode : Mode) : Value :=
  ((x.div y).round sw 0 mode).mul sw y

/-- DIVREM Dq, Dr, Da, Db (R160): both results are computed from the sources read at issue, then both registers are
written (30_encoding.md R77). `rd = rr` is an illegal command (R75): it has that rule's one effect. The decoder never
answers such a term. -/
def execDivrem (rd rr rs1 rs2 : Reg) (s : State) : Host.Outcome State Fault Refusal :=
  if rd = rr then .next s.raiseIll
  else withSources rs1 rs2 s fun x y =>
    (s.setReg rd (x.divrem switches y).1).setReg rr (x.divrem switches y).2

/-- QUANTA Dd, Da, Db, mode (R161). -/
def execQuanta (rd rs1 rs2 : Reg) (mode : Mode) (s : State) : Host.Outcome State Fault Refusal :=
  withSources rs1 rs2 s fun x y => s.setReg rd (x.quanta switches y mode)

end Sys2Proof.Machine
end

