-- ==== Sys2Proof/Machine/Dispatch.lean ====
section
/-! DEFINITION. One arm per command (30_encoding.md R76). -/

namespace Sys2Proof.Machine

def exec (i : Instr) (s : State) : Host.Outcome State Fault Refusal :=
  match i with
  | .add rd rs1 rs2 => Sys2Proof.Machine.execAdd rd rs1 rs2 s
  | .sub rd rs1 rs2 => Sys2Proof.Machine.execSub rd rs1 rs2 s
  | .mul rd rs1 rs2 => Sys2Proof.Machine.execMul rd rs1 rs2 s
  | .div rd rs1 rs2 => Sys2Proof.Machine.execDiv rd rs1 rs2 s
  | .divrem rd rr rs1 rs2 => Sys2Proof.Machine.execDivrem rd rr rs1 rs2 s
  | .round rd rs1 places mode => Sys2Proof.Machine.execRound rd rs1 places mode s
  | .quanta rd rs1 rs2 mode => Sys2Proof.Machine.execQuanta rd rs1 rs2 mode s
  | .cmp rs1 rs2 => Sys2Proof.Machine.execCmp rs1 rs2 s
  | .eq rs1 rs2 => Sys2Proof.Machine.execEq rs1 rs2 s
  | .neg rd rs1 => Sys2Proof.Machine.execNeg rd rs1 s
  | .abs rd rs1 => Sys2Proof.Machine.execAbs rd rs1 s

end Sys2Proof.Machine
end

