-- ==== Sys2Proof/Machine/Bus.lean ====
section
/-! DEFINITION. What each event of the host does: a command word issued by a write to CMD (30_encoding.md R76, R79),
the two bus transactions (20_memory.md R52, R53), an access that is none (R54), and reset (70_reset_and_hazards.md
R250). -/

namespace Sys2Proof.Machine

/-- Issue of a command word (R76, R79): an illegal word sets `STATUS.ILL` and changes nothing else (R75), any other
runs as the command it decodes to. -/
def issue (c : Word) (s : State) : Host.Outcome State Fault Refusal :=
  match decode c with
  | .ok i => exec i s
  | .error _ => .next s.raiseIll

/-- What one event of the host does to a state from which the event has been taken. -/
def runEvent (e : HostEvent) (s : State) : Host.Outcome State Fault Refusal :=
  match e with
  | .busRead off => busRead off s
  | .busWrite off w => busWrite off w s issue
  | .otherWidth _ _ => .fault .notATransaction
  | .reset => .next s.doReset

/-- The host's event for the command word `c`: its write to CMD (30_encoding.md R80). -/
def cmdWrite (c : Word) : HostEvent := .busWrite 0x100 c

end Sys2Proof.Machine
end

