-- ==== Sys2Proof/Machine/Step.lean ====
section
/-! DEFINITION. One step: the FDU takes the host's next event (20_memory.md R57: "A model's step for the FDU is one bus
transaction; a CMD write is one step that performs the whole command"). -/

namespace Sys2Proof.Machine

/-- One step. With no event of the host left the state is held (60_exceptions.md R242; log entry 2). -/
def step (s : State) : Host.Outcome State Fault Refusal :=
  match s.host with
  | [] => .next s
  | e :: rest => runEvent e (s.takeEvent rest)

/-- `s` with the host's next event the write of the command word `w` to CMD: the FDU fetches nothing (10_state.md
R28), and a CMD write is what runs a command (log entry 2). -/
def State.withFetchWord (s : State) (nbits w : Nat) : State :=
  { s with host := cmdWrite (BitVec.ofNat 32 (w % 2 ^ nbits)) :: s.host }

end Sys2Proof.Machine
end

