-- ==== Sys2Proof/Machine/DivEngine.lean ====
section
/-! DEFINITION. The long-division engine, step by step (43_div.md R132 to R138): "a realisation of R131, not a second
definition". DIV's meaning runs on R131 (`quotient`); this is the hardware block R2 names, and the two are stated to
agree (R140). Limb lists are most significant first. -/

namespace Sys2Proof.Machine

open Config

/-- `l` cut or filled on the right with zero limbs to `n` limbs. -/
def padTake (n : Nat) (l : List Nat) : List Nat := (l ++ List.replicate n 0).take n

/-- `f * l`: the carry out of the leading limb, and as many limbs as `l` has (R134). -/
def scaleLimbs (f : Nat) : List Nat → Nat × List Nat
  | [] => (0, [])
  | a :: as =>
    let r := scaleLimbs f as
    ((f * a + r.1) / radix, (f * a + r.1) % radix :: r.2)

/-- `a - b` limb by limb, the borrow running right to left (R136). -/
def subLimbs : List Nat → List Nat → Nat × List Nat
  | a :: as, b :: bs =>
    let r := subLimbs as bs
    let c := subCell a b r.1
    (c.2, c.1 :: r.2)
  | _, _ => (0, [])

/-- `(diff, borrow) <- win - qhat * V` (R136); `win` has one limb more than `V`. -/
def windowSub (win V : List Nat) (q : Nat) : Nat × List Nat :=
  let p := scaleLimbs q V
  subLimbs win (p.1 :: p.2)

/-- The decrement-and-retry loop of R136, from the estimate down: the digit and the remaining window. -/
def settleDigit (win V : List Nat) : Nat → Nat × List Nat
  | 0 => (0, (windowSub win V 0).2)
  | q + 1 =>
    let r := windowSub win V (q + 1)
    if r.1 = 0 then (q + 1, r.2) else settleDigit win V q

/-- The estimate of R136: the top three window limbs over the top two denominator limbs, at most `10^9 - 1`. -/
def estimate (win V : List Nat) : Nat :=
  let n := V.length
  let top3 := (win.getD 0 0 * radix + win.getD 1 0) * radix + (if n > 1 then win.getD 2 0 else 0)
  let v2 := V.getD 0 0 * radix + (if n > 1 then V.getD 1 0 else 0)
  min (radix - 1) (top3 / v2)

/-- The digits, R136 to R138. `k` counts the output positions from `pos` to limb 5, so `pos = 6 - k`; at `k = 0` the
digit would land right of limb 5, which is underflow (R137). `rest` is `U` from `next` on. -/
def engineDigits (V : List Nat) : (k : Nat) → (win rest : List Nat) → (res : Mags) → Option (Mags × Bool)
  | 0, _, _, res => some (res, true)
  | k + 1, win, rest, res =>
    let d := settleDigit win V (estimate win V)
    -- R137: position `pos = 5 - k`; left of limb 0 when `k > 5`
    if k > 5 ∧ d.1 ≠ 0 then none
    else
      let res' := if k > 5 then res else res.set (5 - k) d.1
      -- R138: exhausted, or shift the window left by one limb
      if d.2.all (· == 0) && rest.all (· == 0) then some (res', false)
      else engineDigits V k (d.2.tail ++ [rest.getD 0 0]) rest.tail res'

/-- `Engine(a, b)` (R132 to R138) for nonzero `a` and `b`: the quotient limbs and the underflow signal, or `none` for
overflow. -/
def engine (a b : Mags) : Option (Mags × Bool) :=
  let num := a.toList
  let den := b.toList
  -- R132: leading-zero skip
  let fn := num.findIdx (· != 0)
  let fd := den.findIdx (· != 0)
  -- R133: `pos = 1 + fn - fd`, one more if `long`; the positions left to limb 5
  let long := decide (num.getD fn 0 < den.getD fd 0)
  let places := 5 + fd - fn - (if long then 1 else 0)
  -- R134: normalisation
  let lead := den.getD fd 0
  let f := if lead < radix / 2 then radix / 2 / (lead + 1) else 1
  let V := (scaleLimbs f (den.drop fd)).2
  let u := scaleLimbs f (num.drop fn)
  -- R135: the window, past the empty carry limb when `long`
  let U := if long then u.2 else u.1 :: u.2
  engineDigits V places (padTake (V.length + 1) U) (U.drop (V.length + 1)) zeroMags

end Sys2Proof.Machine
end

