-- ==== Sys2Proof/Machine/HostText.lean ====
section
/-! DEFINITION. The host-side reference functions of 48_host_text_digits.md: the digit buffer, `parse`, `output`, the
converters and the mapping `text`/`val` of R218. Nothing here is hardware and no command performs it (R190,
00_scope.md R4): it is how the host turns a text into six limb words and back. A text is a list of characters. -/

namespace Sys2Proof.Machine

open Config

/-! ### The digit buffer (R191) -/

/-- `DigitBuffer`: `digits` are the first `digitCount` digits, most significant first. -/
structure DigitBuffer where
  neg : Bool
  nan : Bool
  ovf : Bool
  unf : Bool
  pointIndex : Nat
  digits : List Nat
deriving DecidableEq, Repr

/-- The buffer's 54 digit slots. -/
abbrev bufferSlots : Nat := 54

/-- The NaN buffer of `parse` (R192). -/
def nanBuffer : DigitBuffer :=
  { neg := false, nan := true, ovf := false, unf := false, pointIndex := 0, digits := [] }

/-- The ten syntax errors (R196). -/
inductive ParseError where
  | multipleUnderflow
  | multipleOverflow
  | multipleMinus
  | multiplePlus
  | invalidDecimalPoint
  | multipleExponents
  | multipleExponentSigns
  | missingExponentValue
  | noDigits
  | invalidCharacter (c : Char)
deriving DecidableEq, Repr

/-! ### The prefix scan (R193) -/

/-- What the prefix scan has seen. -/
structure Prefix where
  unf : Bool := false
  ovf : Bool := false
  sawSign : Bool := false
  neg : Bool := false
deriving DecidableEq, Repr

/-- The prefix scan: `~`, `<` and a sign in any order, each at most once; it stops at the first other character. -/
def scanPrefix (p : Prefix) : List Char → Except ParseError (Prefix × List Char)
  | [] => .ok (p, [])
  | c :: cs =>
    if c = '~' then (if p.unf then .error .multipleUnderflow else scanPrefix { p with unf := true } cs)
    else if c = '<' then (if p.ovf then .error .multipleOverflow else scanPrefix { p with ovf := true } cs)
    else if c = '+' then (if p.sawSign then .error .multiplePlus else scanPrefix { p with sawSign := true } cs)
    else if c = '-' then
      (if p.sawSign then .error .multipleMinus else scanPrefix { p with sawSign := true, neg := true } cs)
    else .ok (p, c :: cs)

/-! ### The digit scan (R194, R195) -/

/-- The variables of the digit scan. -/
structure Scan where
  digits : List Nat := []
  pointIndex : Nat := 0
  ovf : Bool := false
  unf : Bool := false
  inExponent : Bool := false
  sawDigit : Bool := false
  sawPoint : Bool := false
  storing : Bool := false
  sawExp : Bool := false
  sawExpSign : Bool := false
  expNeg : Bool := false
  expDigits : Nat := 0
  exp : Nat := 0
deriving DecidableEq, Repr

/-- The value of a digit character. -/
def digitValue (c : Char) : Option Nat :=
  if '0'.toNat ≤ c.toNat && c.toNat ≤ '9'.toNat then some (c.toNat - '0'.toNat) else none

/-- `Store(d)` (R195), with `slots` digit slots: 54 in the buffer of R191.

DESIGN CHOICE (log entry 10): a digit past the last slot is lost as R195's steps say, so a plain text of 19 or more
integer digits whose fraction has a nonzero digit past slot 54 but within 36 places gets the underflow flag, where
R199 and the plain-text line of R218 leave it clear; `parseByValue` gives the result of those two. -/
def storeDigit (slots : Nat) (s : Scan) (d : Nat) : Scan :=
  if s.digits.length < slots then
    { s with
      digits := s.digits ++ [d]
      pointIndex := if s.sawPoint then s.pointIndex else s.pointIndex + 1 }
  else if !s.sawPoint then { s with pointIndex := s.pointIndex + 1, ovf := true }
  else if d ≠ 0 then { s with unf := true }
  else s

/-- A digit `d` met by the scan (R194). -/
def scanDigit (slots : Nat) (s : Scan) (d : Nat) : Scan :=
  if s.inExponent then { s with exp := 10 * s.exp + d, expDigits := s.expDigits + 1 }
  else
    let storing := s.storing || d ≠ 0 || s.sawPoint
    let s := { s with sawDigit := true, storing := storing }
    if storing then storeDigit slots s d else s

/-- One character of the digit scan (R194). -/
def scanChar (slots : Nat) (s : Scan) (c : Char) : Except ParseError Scan :=
  match digitValue c with
  | some d => .ok (scanDigit slots s d)
  | none =>
    if c = '.' then
      if s.sawPoint || s.inExponent then .error .invalidDecimalPoint
      else .ok { s with sawPoint := true, storing := true }
    else if c = 'e' || c = 'E' then
      if s.sawExp then .error .multipleExponents else .ok { s with sawExp := true, inExponent := true }
    else if c = '+' || c = '-' then
      if s.inExponent && s.expDigits = 0 then
        if s.sawExpSign then .error .multipleExponentSigns
        else .ok { s with sawExpSign := true, expNeg := c = '-' }
      else .error (.invalidCharacter c)
    else .error (.invalidCharacter c)

/-- The digit scan over the remaining characters. -/
def scanDigits (slots : Nat) (s : Scan) : List Char → Except ParseError Scan
  | [] => .ok s
  | c :: cs =>
    match scanChar slots s c with
    | .ok s' => scanDigits slots s' cs
    | .error e => .error e

/-- The two scans and the two checks after them (R193, R194), for a text that is neither empty nor `NaN`. -/
def scanText (slots : Nat) (t : List Char) : Except ParseError (Prefix × Scan) :=
  match scanPrefix {} t with
  | .error e => .error e
  | .ok (p, rest) =>
    match scanDigits slots {} rest with
    | .error e => .error e
    | .ok s =>
      if s.sawExp && s.expDigits = 0 then .error .missingExponentValue
      else if !s.sawDigit then .error .noDigits
      else .ok (p, s)

/-- `E` of R194: the exponent with its sign. -/
def Scan.exponent (s : Scan) : Int := if s.expNeg then -(s.exp : Int) else s.exp

/-! ### `scale` (R197) -/

/-- Strip the leading zero digits of the integer part; `pointIndex` falls with each. -/
def stripLeading : Nat → List Nat → Nat × List Nat
  | p + 1, 0 :: ds => stripLeading p ds
  | p, ds => (p, ds)

/-- Digits without their trailing zeros. -/
def dropTrailingZeros (ds : List Nat) : List Nat := (ds.reverse.dropWhile (· == 0)).reverse

/-- Strip the trailing zero digits of the fractional part. -/
def stripTrailing (p : Nat) (ds : List Nat) : List Nat :=
  ds.take p ++ dropTrailingZeros (ds.drop p)

/-- The point shift of `scale(E)`: the digits, `pointIndex`, and whether a nonzero digit was pushed past slot 53. A
shift of 54 slots or more pushes every digit out. -/
def shiftPoint (E : Int) (pointIndex : Nat) (ds : List Nat) : List Nat × Nat × Bool :=
  let p := pointIndex + E
  if E > 0 then (ds ++ List.replicate (min bufferSlots p.toNat - ds.length) 0, p.toNat, false)
  else if p < 0 then
    let shifted := List.replicate (min bufferSlots (-p).toNat) 0 ++ ds
    (shifted.take bufferSlots, 0, (shifted.drop bufferSlots).any (· != 0))
  else (ds, p.toNat, false)

/-- `scale(E)` (R197). -/
def scaleBuffer (E : Int) (b : DigitBuffer) : DigitBuffer :=
  if b.digits.all (· == 0) then { b with digits := [], pointIndex := 0 }
  else
    let sh := shiftPoint E b.pointIndex b.digits
    let lead := stripLeading sh.2.1 sh.1
    let ds := stripTrailing lead.1 lead.2
    { b with
      pointIndex := lead.1
      digits := ds
      ovf := b.ovf || decide (lead.1 > 18)
      unf := b.unf || sh.2.2 || decide (ds.length - lead.1 > fracDigits) }

/-! ### `parse` (R192, R198) -/

/-- R198: on overflow the canonical maximum's digits, the negative and underflow flags kept. -/
def forceMaximum (b : DigitBuffer) : DigitBuffer :=
  if b.ovf then { b with pointIndex := 18, digits := List.replicate bufferSlots 9 } else b

/-- What the first two lines of R192's order of work accept: the empty text and the literal `NaN`. -/
def isNanText (t : List Char) : Bool := t = [] || t = ['N', 'a', 'N']

/-- `parse(text)` (R192), by the steps of R193 to R198. -/
def parse (t : List Char) : Except ParseError DigitBuffer :=
  if isNanText t then .ok nanBuffer
  else
    match scanText bufferSlots t with
    | .error e => .error e
    | .ok (p, s) =>
      .ok (forceMaximum (scaleBuffer s.exponent
        { neg := p.neg
          nan := false
          ovf := p.ovf || s.ovf
          unf := p.unf || s.unf
          pointIndex := s.pointIndex
          digits := s.digits }))

/-- What the caller of `parse` receives: the buffer, or a NaN-flagged buffer alongside the error (R192).

DESIGN CHOICE (log entry 16): R192 states of the buffer beside an error only that it is NaN-flagged; it is the NaN buffer
of the empty text here, every other flag clear and no digits, whatever the scan had seen (`~1x`). -/
def parseResult (t : List Char) : DigitBuffer × Option ParseError :=
  match parse t with
  | .ok b => (b, none)
  | .error e => (nanBuffer, some e)

/-- The integer digits `digits[0 .. pointIndex-1]`. Slots past `digitCount` count as 0: digit `k` of the buffer stands for
`digits[k] * 10^(pointIndex - 1 - k)` (R191). -/
def DigitBuffer.intDigits (b : DigitBuffer) : List Nat :=
  b.digits.take b.pointIndex ++ List.replicate (b.pointIndex - b.digits.length) 0

/-! ### `output` (R201) -/

/-- A decimal digit as a character. -/
def digitChar (d : Nat) : Char := Char.ofNat ('0'.toNat + d)

/-- `output(buffer)` (R201). -/
def output (b : DigitBuffer) : List Char :=
  let signs := (if b.unf then ['~'] else []) ++ (if b.neg then ['-'] else []) ++ (if b.ovf then ['<'] else [])
  if b.nan then signs ++ ['N', 'a', 'N']
  else
    let int := if b.pointIndex = 0 then ['0'] else b.intDigits.map digitChar
    let frac := (b.digits.drop b.pointIndex).take fracDigits
    signs ++ int ++ (if frac = [] then [] else '.' :: frac.map digitChar)

/-! ### The converters (R202, R204) -/

/-- The `k` low decimal digits of `n`, most significant first. -/
def fixedDigits : Nat → Nat → List Nat
  | 0, _ => []
  | k + 1, n => fixedDigits k (n / 10) ++ [n % 10]

/-- The number that decimal digits denote. -/
def numberOf (ds : List Nat) : Nat := ds.foldl (fun n d => 10 * n + d) 0

/-- The digits of the magnitude of `int` integer units and the fractional digits `frac`: `pointIndex`, and the digits
without leading and trailing zeros. -/
def magnitudeDigits (int : Nat) (frac : List Nat) : Nat × List Nat :=
  let i := (fixedDigits 18 int).dropWhile (· == 0)
  (i.length, i ++ dropTrailingZeros frac)

/-- `toDigits(FixedDecimal)` (R202); a NaN buffer carries the sign only.

DESIGN CHOICE (log entry 15): of an ill-formed value, for which R202 states no digits, the low 18 integer digits and the
low 9 digits of each fractional limb are kept. -/
def toDigits (v : Value) : DigitBuffer :=
  if v.nan then { nanBuffer with neg := v.neg }
  else
    let m := v.mags
    let pd := magnitudeDigits (m.m0 * radix + m.m1)
      (fixedDigits 9 m.m2 ++ fixedDigits 9 m.m3 ++ fixedDigits 9 m.m4 ++ fixedDigits 9 m.m5)
    { neg := v.neg
      nan := false
      ovf := v.ovf
      unf := v.unf
      pointIndex := pd.1
      digits := pd.2 }

/-- `toFixedDecimal(DigitBuffer)` (R204): the negative flag is applied unconditionally. -/
def toFixedDecimal (b : DigitBuffer) : Value :=
  if b.nan then packValue b.neg true false false zeroMags
  else if b.ovf || b.pointIndex > 18 then overflowValue b.neg b.unf
  else
    let int := numberOf b.intDigits
    let frac := (b.digits.drop b.pointIndex).take fracDigits
    let F := numberOf (frac ++ List.replicate (fracDigits - frac.length) 0)
    finite b.neg (b.unf || decide (b.digits.length - b.pointIndex > fracDigits)) (limbs (int * fracScale + F))

/-! ### `parse` by value (R199)

R199 states on numbers what the steps of R193 to R198 give. Past 54 digits the two differ (log entry 10); both are here. -/

/-- `floor(v * 10^36)` for the scanned `v = M * 10^E` (R199), and whether `v * 10^36` is no integer. -/
def scanFloor (s : Scan) : Nat × Bool :=
  let n := numberOf s.digits
  let k : Int := s.exponent - (s.digits.length - s.pointIndex : Nat) + fracDigits
  if k ≥ 0 then (n * 10 ^ k.toNat, false)
  else (n / 10 ^ (-k).toNat, decide (n % 10 ^ (-k).toNat ≠ 0))

/-- The buffer of R199: every digit of the mantissa counts (as many slots as the text has characters), the flags are set
by the value, and the digits are those of `floor(v * 10^36) / 10^36`. -/
def parseByValue (t : List Char) : Except ParseError DigitBuffer :=
  if isNanText t then .ok nanBuffer
  else
    match scanText t.length t with
    | .error e => .error e
    | .ok (p, s) =>
      let nu := scanFloor s
      let pd := magnitudeDigits (nu.1 / fracScale) (fixedDigits fracDigits nu.1)
      .ok (forceMaximum
        { neg := p.neg
          nan := false
          ovf := p.ovf || decide (nu.1 ≥ capacity)
          unf := p.unf || nu.2
          pointIndex := pd.1
          digits := pd.2 })

/-! ### The mapping of the spec's vectors (R218) -/

/-- `text(v) = output(toDigits(v))`. -/
def valueText (v : Value) : List Char := output (toDigits v)

/-- The value a parsed buffer stands for: `toFixedDecimal` with the sign of an exact zero cleared (90_conflicts.md C8). -/
def valueOfBuffer (b : DigitBuffer) : Value :=
  let z := toFixedDecimal b
  if !z.nan && z.isZero && !z.unf then z.setNeg false else z

/-- `val(t)` over `parse`; `none` where `t` does not parse. -/
def valueOfText (t : List Char) : Option Value := (parse t).toOption.map valueOfBuffer

/-- `val(t)` by R218's plain-text line and R199: the same over `parseByValue`. It differs from `valueOfText` only past 54
digits (log entry 10). -/
def valueOfTextByValue (t : List Char) : Option Value := (parseByValue t).toOption.map valueOfBuffer

end Sys2Proof.Machine
end

