-- ==== Sys2Proof/Machine/HostProgram.lean ====
section
/-! DEFINITION. How the host's programs are written (30_encoding.md R80, R81): a command line is its CMD write, the
pseudo-instructions `LDV`, `RDV` and `RESET` are the events they expand to. -/

namespace Sys2Proof.Machine

/-- The assembler line of a command (R80): `WR 0x100` of its command word. -/
def commandLine (i : Instr) : List HostEvent := [cmdWrite (encode i)]

/-- The offset of `D[r].limb[i]` (20_memory.md R51). -/
def limbOffset (r : Reg) (i : Fin 6) : Nat := 0x20 * r.val + 4 * i.val

/-- The six word writes that load the value `v` into `D[r]`. -/
def loadValue (r : Reg) (v : Value) : List HostEvent :=
  [.busWrite (limbOffset r 0) v.limb0, .busWrite (limbOffset r 1) v.limb1, .busWrite (limbOffset r 2) v.limb2,
   .busWrite (limbOffset r 3) v.limb3, .busWrite (limbOffset r 4) v.limb4, .busWrite (limbOffset r 5) v.limb5]

/-- `LDV Dr, "text"` (R81); `none` where the text does not parse. -/
def ldv (r : Reg) (t : List Char) : Option (List HostEvent) := (valueOfText t).map (loadValue r)

/-- `RDV Dr` (R81): six word reads. -/
def rdv (r : Reg) : List HostEvent :=
  [.busRead (limbOffset r 0), .busRead (limbOffset r 1), .busRead (limbOffset r 2),
   .busRead (limbOffset r 3), .busRead (limbOffset r 4), .busRead (limbOffset r 5)]

/-- `RESET` (R81): the reset event, not a bus transaction. -/
def resetLine : List HostEvent := [.reset]

end Sys2Proof.Machine
end

