-- ==== Sys2Proof/Safety.lean ====
section
/-! DEFINITION. What the statements speak of: which registers a command reads and writes, the two conditions a state can
meet (every register well-formed, RES a legal result), and the hosts that keep the obligations of
70_reset_and_hazards.md R251. A run is safe when no step of it stops. -/

namespace Sys2Proof.Machine

/-- The registers a command reads (30_encoding.md R72, R76). -/
def sourcesOf (i : Instr) : List Reg :=
  match i with
  | .add _ rs1 rs2 => [rs1, rs2]
  | .sub _ rs1 rs2 => [rs1, rs2]
  | .mul _ rs1 rs2 => [rs1, rs2]
  | .div _ rs1 rs2 => [rs1, rs2]
  | .divrem _ _ rs1 rs2 => [rs1, rs2]
  | .round _ rs1 _ _ => [rs1]
  | .quanta _ rs1 rs2 _ => [rs1, rs2]
  | .cmp rs1 rs2 => [rs1, rs2]
  | .eq rs1 rs2 => [rs1, rs2]
  | .neg _ rs1 => [rs1]
  | .abs _ rs1 => [rs1]

/-- The registers a command writes (R76, R78). -/
def destsOf (i : Instr) : List Reg :=
  match i with
  | .add rd _ _ => [rd]
  | .sub rd _ _ => [rd]
  | .mul rd _ _ => [rd]
  | .div rd _ _ => [rd]
  | .divrem rd rr _ _ => [rd, rr]
  | .round rd _ _ _ => [rd]
  | .quanta rd _ _ _ => [rd]
  | .cmp _ _ => []
  | .eq _ _ => []
  | .neg rd _ => [rd]
  | .abs rd _ => [rd]

/-- Every source of the command is well-formed in `s`: the host's obligation before issuing it (R251 (a)). -/
abbrev SourcesWf (i : Instr) (s : State) : Prop := ∀ r ∈ sourcesOf i, (s.reg r).wf = true

/-- Every decimal register holds a well-formed value (10_state.md R25). -/
abbrev AllWf (s : State) : Prop := ∀ r : Reg, (s.reg r).wf = true

/-- RES holds one of the results of CMP and EQ (10_state.md R30): -1, 0 or +1. -/
abbrev ResLegal (s : State) : Prop := s.res = 0xFFFFFFFF ∨ s.res = 0 ∨ s.res = 1

/-- The signed number, scaled by 10^36, that a value without NaN and overflow denotes (R23). -/
def Value.signed (v : Value) : Int := if v.neg then -(v.toNat : Int) else v.toNat

/-- What a host that keeps R251 does: it loads whole well-formed values, issues command words, reads, writes where a
write is ignored, and resets. -/
inductive HostAction where
  /-- Six word writes that load `v` into `D[r]` (R251 (b)). -/
  | load (r : Reg) (v : Value)
  /-- A command word, legal or not. -/
  | issue (c : Word)
  /-- One word read. -/
  | read (off : Nat)
  /-- A write that the window ignores (RES, STATUS, a reserved offset). -/
  | ignoredWrite (off : Nat) (w : Word)
  /-- The reset event. -/
  | reset
deriving DecidableEq, Repr

/-- The events of one action. -/
def HostAction.events (a : HostAction) : List HostEvent :=
  match a with
  | .load r v => loadValue r v
  | .issue c => [cmdWrite c]
  | .read off => [.busRead off]
  | .ignoredWrite off w => [.busWrite off w]
  | .reset => [.reset]

/-- The action keeps the obligations: values loaded are well-formed, accesses are transactions (R54). -/
def HostAction.disciplined (a : HostAction) : Bool :=
  match a with
  | .load _ v => v.wf
  | .issue _ => true
  | .read off => isTransaction off
  | .ignoredWrite off _ =>
    isTransaction off && (locate off == .res || locate off == .status || locate off == .reserved)
  | .reset => true

end Sys2Proof.Machine
end

