-- ==== Sys2Proof/Certificates/Slice0/Obligations.lean ====
section
/-! DEFINITION. The statements for the provers. `N(v)` of the spec is `v.toNat`, a natural scaled by 10^36
(00_scope.md R10); `mkValue`, `overflowValue`, `nanValue`, `zeroValue` are the constructors `mk`, `OVF`, `NAN`, `ZERO` of
R11. A command's result is stated on naturals, against the limb-level pseudocode the model runs. Where a statement
speaks of a step, what it says of the fields `host` and `answer` (the event leaves the queue, what stands on the bus) is
the model's choice, not the spec's (log entry 1). -/

open Sys2Proof Sys2Proof.Machine

/-! ### Encoding (30_encoding.md) -/

/-- Decoding the encoded word of any well-formed command gives the command back, every operand at every value the
encoding admits (R71 to R74). -/
def Obligations.EncodeThenDecode : Prop :=
  ∀ i : Instr, i.wf = true → decode (encode i) = .ok i

/-- A word that decodes is the one encoding of the well-formed command it decodes to: no aliases (R75, decision D35). -/
def Obligations.DecodeThenEncode : Prop :=
  ∀ (c : Word) (i : Instr), decode c = .ok i → i.wf = true ∧ encode i = c

/-- R82: the worked encodings, and the five illegal examples. -/
def Obligations.WorkedEncodings : Prop :=
  encode (.add 2 0 1) = 0x01408000 ∧ decode 0x01408000 = .ok (.add 2 0 1) ∧
  encode (.sub 2 0 1) = 0x02408000 ∧ decode 0x02408000 = .ok (.sub 2 0 1) ∧
  encode (.mul 3 2 2) = 0x03690000 ∧ decode 0x03690000 = .ok (.mul 3 2 2) ∧
  encode (.div 2 0 1) = 0x04408000 ∧ decode 0x04408000 = .ok (.div 2 0 1) ∧
  encode (.divrem 2 3 0 1) = 0x0540B000 ∧ decode 0x0540B000 = .ok (.divrem 2 3 0 1) ∧
  encode (.round 1 0 0 .halfUp) = 0x06200C00 ∧ decode 0x06200C00 = .ok (.round 1 0 0 .halfUp) ∧
  encode (.round 1 0 2 .halfDown) = 0x06200802 ∧ decode 0x06200802 = .ok (.round 1 0 2 .halfDown) ∧
  encode (.round 1 0 (-1) .towards) = 0x062000FF ∧ decode 0x062000FF = .ok (.round 1 0 (-1) .towards) ∧
  encode (.quanta 2 0 1 .away) = 0x07408400 ∧ decode 0x07408400 = .ok (.quanta 2 0 1 .away) ∧
  encode (.cmp 0 1) = 0x08008000 ∧ decode 0x08008000 = .ok (.cmp 0 1) ∧
  encode (.eq 0 1) = 0x09008000 ∧ decode 0x09008000 = .ok (.eq 0 1) ∧
  encode (.neg 1 0) = 0x0A200000 ∧ decode 0x0A200000 = .ok (.neg 1 0) ∧
  encode (.abs 1 0) = 0x0B200000 ∧ decode 0x0B200000 = .ok (.abs 1 0) ∧
  decode 0x00000000 = .error .reservedOpcode ∧
  decode 0x0C000000 = .error .reservedOpcode ∧
  decode 0x01408001 = .error .unusedFieldNonzero ∧
  decode 0x0540A000 = .error .equalDestinations ∧
  decode 0x08208000 = .error .unusedFieldNonzero

/-- R75 whole. `unused` is the must-be-zero mask of the word's format (R72, without the opcode byte). A word of a
reserved opcode, with a nonzero unused field, or a DIVREM with `rd = rr`, written to CMD, sets `STATUS.ILL` and changes
nothing else, and the next event follows as usual; every other word is one of the eleven commands. That the event leaves
`host` and no `answer` stands is the model's choice (log entry 1). -/
def Obligations.IllegalWordOnlySetsIll : Prop :=
  ∀ (c : Word) (s : State) (rest : List HostEvent), s.host = .busWrite 0x100 c :: rest →
    let op := c.toNat / 2 ^ 24
    let unused : Word :=
      if op ≤ 4 then 0x00007FFF else if op = 5 then 0x00000FFF else if op = 6 then 0x0003F300
      else if op = 7 then 0x000073FF else if op ≤ 9 then 0x00E07FFF else 0x0003FFFF
    let illegal : Prop :=
      op = 0 ∨ op ≥ 0x0C ∨ c &&& unused ≠ 0 ∨ (op = 5 ∧ c.toNat / 2 ^ 21 % 8 = c.toNat / 2 ^ 12 % 8)
    (illegal → step s = .next { s with host := rest, answer := none, ill := true }) ∧
      (¬ illegal → ∃ i : Instr, decode c = .ok i)

/-! ### The step and the bus (20_memory.md) -/

/-- A step whose event is a write of a command word to CMD is the execution of the decoded command, on the state from
which the event has been taken (R76, R79); the taking is the model's choice (log entry 1). -/
def Obligations.StepRunsDecodedCommand : Prop :=
  ∀ (s : State) (c : Word) (i : Instr) (rest : List HostEvent),
    s.host = .busWrite 0x100 c :: rest → decode c = .ok i →
      step s = exec i { s with host := rest, answer := none }

/-- With no event of the host the state is held: the model's reading of 60_exceptions.md R242 (log entry 2). -/
def Obligations.IdleStepHoldsState : Prop :=
  ∀ s : State, s.host = [] → step s = .next s

/-- R51, R52: an aligned read inside the window returns the word the address map puts there, at reserved offsets and at
CMD 0, and changes no register, not RES, not STATUS. Where the word stands is the model's choice (log entry 1). -/
def Obligations.BusReadReturnsMappedWord : Prop :=
  ∀ (s : State) (off : Nat) (rest : List HostEvent),
    s.host = .busRead off :: rest → off % 4 = 0 → off < 0x200 →
      ∃ w : Word, step s = .next { s with host := rest, answer := some w } ∧
        (∀ (r : Reg) (j : Fin 6), off = 0x20 * r.val + 4 * j.val → w = (s.reg r).limb j) ∧
        (off = 0x104 → w = s.res) ∧
        (off = 0x108 → w = if s.ill then 1 else 0) ∧
        ((∀ (r : Reg) (j : Fin 6), off ≠ 0x20 * r.val + 4 * j.val) → off ≠ 0x104 → off ≠ 0x108 → w = 0)

/-- R53: a write to a limb word stores all 32 bits there and changes nothing else; a write to CMD issues the word as a
command; every other aligned write inside the window is ignored. What it says of `host` and `answer` is the model's
choice (log entry 1). -/
def Obligations.BusWriteStoresOrIssuesOrIsIgnored : Prop :=
  ∀ (s : State) (off : Nat) (w : Word) (rest : List HostEvent),
    s.host = .busWrite off w :: rest → off % 4 = 0 → off < 0x200 →
      (∀ (r : Reg) (j : Fin 6), off = 0x20 * r.val + 4 * j.val →
        ∃ t : State, step s = .next t ∧ (t.reg r).limb j = w ∧
          (∀ (q : Reg) (k : Fin 6), ¬ (q = r ∧ k = j) → (t.reg q).limb k = (s.reg q).limb k) ∧
          t.res = s.res ∧ t.ill = s.ill ∧ t.host = rest ∧ t.answer = none) ∧
      (off = 0x100 → step s = issue w { s with host := rest, answer := none }) ∧
      ((∀ (r : Reg) (j : Fin 6), off ≠ 0x20 * r.val + 4 * j.val) → off ≠ 0x100 →
        step s = .next { s with host := rest, answer := none })

/-- R54 and U6: an access that is misaligned, outside the window or of another width is no transaction; the model is
stuck. The named fault is the model's reading of that (log entry 5). -/
def Obligations.OtherAccessesAreStuck : Prop :=
  ∀ (s : State) (off bytes : Nat) (w : Word) (rest : List HostEvent),
    (off % 4 ≠ 0 ∨ off ≥ 0x200 →
      (s.host = .busRead off :: rest → step s = .fault .notATransaction) ∧
      (s.host = .busWrite off w :: rest → step s = .fault .notATransaction)) ∧
    (bytes ≠ 4 → s.host = .otherWidth bytes off :: rest → step s = .fault .notATransaction)

/-- R81, R53: the six word writes of a load leave the whole value in its register and everything else as it was. That
six events leave `host` is the model's choice (log entry 1). -/
def Obligations.LoadValueFillsRegister : Prop :=
  ∀ (s : State) (r : Reg) (v : Value) (rest : List HostEvent), s.host = loadValue r v ++ rest →
    Host.Core.run Sys2Proof.core 6 s = .next { s.setReg r v with host := rest, answer := none }

/-- R235, R31: `STATUS.ILL`, once set, stays set over every step but a reset, and a reset clears it. -/
def Obligations.OnlyResetClearsIll : Prop :=
  ∀ s t : State, step s = .next t → s.ill = true →
    ((∀ rest, s.host ≠ .reset :: rest) → t.ill = true) ∧ ((∃ rest, s.host = .reset :: rest) → t.ill = false)

/-! ### Reset and invariants -/

/-- R36: reset writes 0 to all 48 limb words, to RES and to `STATUS.ILL`, from every state; and `State.reset`
has those values. That the host's further events stay and no `answer` stands is the model's choice (log entries 1, 9). -/
def Obligations.ResetClearsEverything : Prop :=
  (∀ (s : State) (rest : List HostEvent), s.host = .reset :: rest →
    ∃ t : State, step s = .next t ∧ (∀ (r : Reg) (j : Fin 6), (t.reg r).limb j = 0) ∧ t.res = 0 ∧ t.ill = false ∧
      t.host = rest ∧ t.answer = none) ∧
  (∀ (r : Reg) (j : Fin 6), (State.reset.reg r).limb j = 0) ∧ State.reset.res = 0 ∧ State.reset.ill = false

/-- Every step keeps RES a legal result of CMP or EQ: -1, 0 or +1 (10_state.md R30), whatever the host does. -/
def Obligations.StepKeepsResLegal : Prop :=
  ∀ s t : State, ResLegal s → step s = .next t → ResLegal t

/-- Reset meets the invariants: RES is legal and every register is well-formed (R36, R251). -/
def Obligations.ResetIsLegal : Prop :=
  ResLegal State.reset ∧ AllWf State.reset

/-- R97, closure: a command whose sources are well-formed runs, and every value it writes is well-formed: magnitudes
below 10^9, reserved flag bits 0, overflow only with the canonical maximum, no negative exact zero, and a NaN result is
exactly `NAN`. -/
def Obligations.CommandsAreClosed : Prop :=
  ∀ (i : Instr) (s : State), i.wf = true → SourcesWf i s →
    ∃ t : State, exec i s = .next t ∧ ∀ q ∈ destsOf i,
      (t.reg q).wf = true ∧ (t.reg q).mags.inRange = true ∧ (t.reg q).reservedZero = true ∧
        ((t.reg q).ovf = true → (t.reg q).mags = maxMags) ∧
        ¬ ((t.reg q).neg = true ∧ (t.reg q).toNat = 0 ∧ (t.reg q).unf = false) ∧
        ((t.reg q).nan = true → t.reg q = nanValue)

/-- R251: a host that loads only whole well-formed values, and otherwise issues any words, reads, writes where writes
are ignored, and resets, never meets a stop, and every register is well-formed when it is done. -/
def Obligations.DisciplinedHostNeverStops : Prop :=
  ∀ (acts : List HostAction) (s : State), AllWf s → (∀ a ∈ acts, a.disciplined = true) →
    s.host = acts.flatMap HostAction.events →
      ∃ t : State, Host.Core.run Sys2Proof.core s.host.length s = .next t ∧ AllWf t ∧ t.host = []

/-! ### Frames and completion -/

/-- R78: a legal command changes only its destination registers and, for CMP and EQ, RES: no other register, not
STATUS, and no other word that the host can read through the window. -/
def Obligations.CommandFrame : Prop :=
  ∀ (i : Instr) (s t : State), i.wf = true → exec i s = .next t →
    (∀ q : Reg, q ∉ destsOf i → t.reg q = s.reg q) ∧
    ((∀ a b, i ≠ .cmp a b) → (∀ a b, i ≠ .eq a b) → t.res = s.res) ∧
    t.ill = s.ill ∧ t.host = s.host ∧ t.answer = s.answer ∧
    (∀ off : Nat, off % 4 = 0 → (∀ q ∈ destsOf i, ∀ j : Fin 6, off ≠ 0x20 * q.val + 4 * j.val) →
      (off = 0x104 → (∀ a b, i ≠ .cmp a b) ∧ (∀ a b, i ≠ .eq a b)) → t.readWord off = s.readWord off)

/-- Every command completes whenever its sources are well-formed: no operand value traps or stops it (R230, R251). -/
def Obligations.WellFormedSourcesComplete : Prop :=
  ∀ (i : Instr) (s : State), i.wf = true → SourcesWf i s → ∃ t : State, exec i s = .next t

/-- R27 and U1: a command that reads a register whose value is not well-formed is refused, by the name of such a
source (log entry 4). -/
def Obligations.IllFormedSourceIsRefused : Prop :=
  ∀ (i : Instr) (s : State), i.wf = true → (∃ r ∈ sourcesOf i, (s.reg r).wf = false) →
    ∃ r ∈ sourcesOf i, (s.reg r).wf = false ∧ exec i s = .refused (.illFormedSource r)

/-- R100, R99: with well-formed sources, a NaN source gives the canonical `NAN` in every register the command
writes. -/
def Obligations.NanSourceGivesCanonicalNan : Prop :=
  ∀ (i : Instr) (s : State), i.wf = true → SourcesWf i s → (∃ r ∈ sourcesOf i, (s.reg r).nan = true) →
    ∃ t : State, exec i s = .next t ∧ ∀ q ∈ destsOf i, t.reg q = nanValue

/-! ### Results: ADD, SUB (41_add_sub.md) -/

/-- R110, ADD on naturals. -/
def Obligations.AddResult : Prop :=
  ∀ (rd rs1 rs2 : Reg) (s : State), (s.reg rs1).wf = true → (s.reg rs2).wf = true →
    let x := s.reg rs1
    let y := s.reg rs2
    let u := x.unf || y.unf
    exec (.add rd rs1 rs2) s = .next (s.setReg rd
      (if x.nan = true ∨ y.nan = true then nanValue
       else if x.ovf = true ∨ y.ovf = true then
         overflowValue (if x.neg = y.neg then x.neg else x.neg || y.ovf) u
       else if x.neg = y.neg then
         (if x.toNat + y.toNat ≥ 10 ^ 54 then overflowValue x.neg u else mkValue x.neg u (x.toNat + y.toNat))
       else if x.toNat = y.toNat then zeroValue
       else if x.toNat > y.toNat then mkValue x.neg u (x.toNat - y.toNat)
       else mkValue y.neg u (y.toNat - x.toNat)))

/-- R111, SUB on naturals: ADD with `y`'s sign flipped, except that an exact zero stays non-negative (R180). -/
def Obligations.SubResult : Prop :=
  ∀ (rd rs1 rs2 : Reg) (s : State), (s.reg rs1).wf = true → (s.reg rs2).wf = true →
    let x := s.reg rs1
    let y := s.reg rs2
    let u := x.unf || y.unf
    let yneg := if y.toNat = 0 ∧ y.unf = false then false else !y.neg
    exec (.sub rd rs1 rs2) s = .next (s.setReg rd
      (if x.nan = true ∨ y.nan = true then nanValue
       else if x.ovf = true ∨ y.ovf = true then
         overflowValue (if x.neg = yneg then x.neg else x.neg || y.ovf) u
       else if x.neg = yneg then
         (if x.toNat + y.toNat ≥ 10 ^ 54 then overflowValue x.neg u else mkValue x.neg u (x.toNat + y.toNat))
       else if x.toNat = y.toNat then zeroValue
       else if x.toNat > y.toNat then mkValue x.neg u (x.toNat - y.toNat)
       else mkValue yneg u (y.toNat - x.toNat)))

/-- R112, the laws of ADD and SUB: commutativity but for the overflowed operand's sign, the neutral zero, exact
magnitudes with underflow only copied, and no negative exact zero. -/
def Obligations.AddSubLaws : Prop :=
  ∀ x y : Value, x.wf = true → y.wf = true →
    ((x.nan = true ∨ y.nan = true ∨ (x.ovf = false ∧ y.ovf = false) ∨ x.neg = y.neg) → x.add y = y.add x) ∧
    (x.nan = false → x ≠ mkValue true true 0 → x.add zeroValue = x) ∧
    ((x.add y).nan = false → (x.add y).ovf = false → (x.add y).signed = x.signed + y.signed) ∧
    ((x.sub y).nan = false → (x.sub y).ovf = false → (x.sub y).signed = x.signed - y.signed) ∧
    ((x.add y).unf = true → x.unf = true ∨ y.unf = true) ∧
    ((x.sub y).unf = true → x.unf = true ∨ y.unf = true) ∧
    ¬ ((x.add y).neg = true ∧ (x.add y).toNat = 0 ∧ (x.add y).unf = false) ∧
    ¬ ((x.sub y).neg = true ∧ (x.sub y).toNat = 0 ∧ (x.sub y).unf = false)

/-! ### Results: MUL (42_mul.md) -/

/-- R121: the accumulator of the 6x6 schoolbook product is the twelve-slot base-10^9 representation of the product. -/
def Obligations.ProductIsFullProduct : Prop :=
  ∀ a b : Mags, a.inRange = true → b.inRange = true →
    (product a b).length = 12 ∧ (∀ d ∈ product a b, d < 10 ^ 9) ∧ limbsValue (product a b) = a.toNat * b.toNat

/-- R120, MUL on naturals, at the spec's setting of `MUL_UNF_IN` (log entry 3). -/
def Obligations.MulResult : Prop :=
  ∀ (rd rs1 rs2 : Reg) (s : State), (s.reg rs1).wf = true → (s.reg rs2).wf = true →
    let x := s.reg rs1
    let y := s.reg rs2
    let sign := Bool.xor x.neg y.neg
    let P := x.toNat * y.toNat
    let u := decide (P % 10 ^ 36 ≠ 0)
    exec (.mul rd rs1 rs2) s = .next (s.setReg rd
      (if x.nan = true ∨ y.nan = true then nanValue
       else if y.toNat ≠ 0 ∧ (x.ovf = true ∨ y.ovf = true) then overflowValue sign false
       else if P / 10 ^ 90 ≠ 0 then overflowValue sign false
       else mkValue (sign && (decide (P / 10 ^ 36 ≠ 0) || u)) u (P / 10 ^ 36)))

/-- R124, the laws of MUL: commutativity but for the zero test before an overflowed operand, the neutral one, the
truncated product, and no negative exact zero. At the spec's setting of the switches (log entry 3). -/
def Obligations.MulLaws : Prop :=
  let sw : Config.Switches := {}
  ∀ x y : Value, x.wf = true → y.wf = true →
    ((x.nan = true ∨ y.nan = true ∨ (x.ovf = false ∧ y.ovf = false) ∨ (x.toNat ≠ 0 ∧ y.toNat ≠ 0)) →
      x.mul sw y = y.mul sw x) ∧
    (x.nan = false → x.unf = false → x.mul sw (mkValue false false (10 ^ 36)) = x) ∧
    (x.nan = false → x.unf = true → x.mul sw (mkValue false false (10 ^ 36))
      = if x.toNat = 0 then zeroValue else packValue x.neg false x.ovf false x.mags) ∧
    (x.nan = false → y.nan = false → x.ovf = false → y.ovf = false → x.toNat * y.toNat / 10 ^ 36 < 10 ^ 54 →
      (x.mul sw y).ovf = false ∧ (x.mul sw y).toNat = x.toNat * y.toNat / 10 ^ 36) ∧
    ¬ ((x.mul sw y).neg = true ∧ (x.mul sw y).toNat = 0 ∧ (x.mul sw y).unf = false)

/-- R122: the switch `MUL_UNF_IN` adds the operands' underflow to the result's, and changes neither NaN, nor overflow,
nor the magnitude. -/
def Obligations.MulUnderflowSwitch : Prop :=
  ∀ x y : Value, x.wf = true → y.wf = true → x.nan = false → y.nan = false →
    let z := x.mul {} y
    let z' := x.mul { mulUnfIn := true } y
    z'.unf = (z.unf || x.unf || y.unf) ∧ z'.nan = z.nan ∧ z'.ovf = z.ovf ∧ z'.mags = z.mags

/-! ### Results: DIV (43_div.md) -/

/-- R130 with R131, DIV on naturals. -/
def Obligations.DivResult : Prop :=
  ∀ (rd rs1 rs2 : Reg) (s : State), (s.reg rs1).wf = true → (s.reg rs2).wf = true →
    let x := s.reg rs1
    let y := s.reg rs2
    let sign := Bool.xor x.neg y.neg
    let uin := x.unf || y.unf
    let Q := x.toNat * 10 ^ 36 / y.toNat
    let u := uin || decide (x.toNat * 10 ^ 36 % y.toNat ≠ 0)
    exec (.div rd rs1 rs2) s = .next (s.setReg rd
      (if x.nan = true ∨ y.nan = true ∨ y.toNat = 0 then nanValue
       else if x.ovf = true ∨ y.ovf = true then overflowValue sign uin
       else if Q ≥ 10 ^ 54 then overflowValue sign uin
       else mkValue (sign && (decide (Q ≠ 0) || u)) u Q))

/-- R140 against R131: the long-division engine of R132 to R138 (normalisation, estimate, decrement and retry, digit
placement) computes the truncated quotient, signals overflow exactly when it needs more than 18 integer digits, and
underflow exactly when a nonzero digit was cut off. That the two agree is R140's inference, and that the overflow answers
`none` the model's (log entry 7). -/
def Obligations.EngineComputesQuotient : Prop :=
  ∀ a b : Mags, a.inRange = true → b.inRange = true → a.toNat ≠ 0 → b.toNat ≠ 0 →
    let Q := a.toNat * 10 ^ 36 / b.toNat
    engine a b =
      if Q ≥ 10 ^ 54 then none else some (limbs Q, decide (a.toNat * 10 ^ 36 % b.toNat ≠ 0))

/-! ### Results: ROUND (44_round.md) -/

/-- R150 to R157, ROUND on naturals, at the spec's setting of the switches (log entry 3). `D` is one unit of the last kept place and
`W` the same unit in the limb of the cut (R151); HalfDown looks at that limb's remainder only (R154). -/
def Obligations.RoundResult : Prop :=
  ∀ (rd rs1 : Reg) (places : Int) (mode : Mode) (s : State), (s.reg rs1).wf = true →
    let x := s.reg rs1
    let X := x.toNat
    let p := places.toNat
    let D := 10 ^ (36 - p)
    let W := 10 ^ (9 - p % 9)
    let up : Bool := match mode with
      | .towards => false
      | .away => decide (X % D ≠ 0)
      | .halfDown => decide (2 * (X % D / 10 ^ (9 * (3 - p / 9))) > W)
      | .halfUp => decide (2 * (X % D) ≥ D)
    let n := (X / D + if up then 1 else 0) * D
    exec (.round rd rs1 places mode) s = .next (s.setReg rd
      (if x.nan = true then nanValue
       else if x.ovf = true then overflowValue x.neg false
       else if X = 0 then zeroValue
       else if places < 0 then nanValue
       else if places ≥ 36 then mkValue x.neg false X
       else if n ≥ 10 ^ 54 then overflowValue x.neg false
       else mkValue (x.neg && decide (n ≠ 0)) false n))

/-! ### Results: DIVREM, QUANTA (45_divrem_quanta.md) -/

/-- R160, DIVREM on naturals: both registers NaN where the quotient is NaN or overflowed, otherwise the truncated
integer quotient and the exact remainder with `x`'s sign. At the spec's setting of the switches (log entry 3). -/
def Obligations.DivremResult : Prop :=
  ∀ (rd rr rs1 rs2 : Reg) (s : State), rd ≠ rr → (s.reg rs1).wf = true → (s.reg rs2).wf = true →
    let x := s.reg rs1
    let y := s.reg rs2
    let k := x.toNat / y.toNat
    let m := x.toNat % y.toNat
    exec (.divrem rd rr rs1 rs2) s = .next
      (if x.nan = true ∨ y.nan = true ∨ y.toNat = 0 ∨ x.ovf = true ∨ y.ovf = true ∨ k ≥ 10 ^ 18 then
        (s.setReg rd nanValue).setReg rr nanValue
       else
        (s.setReg rd (mkValue (Bool.xor x.neg y.neg && decide (k ≠ 0)) false (k * 10 ^ 36))).setReg rr
          (if m ≠ 0 then mkValue x.neg x.unf m
           else if x.toNat = 0 ∧ x.neg = false then mkValue false x.unf 0
           else zeroValue))

/-- R162, the DIVREM identity: whenever DIVREM gives no NaN, `q` is an integer, `|r| < |y|`, `q*y + r` has the magnitude
of `x` exactly and, for nonzero `x`, its sign; `r` has `x`'s sign or is zero; and for operands without underflow EQ
finds `q*y + r` equal to `x`. At the spec's setting of the switches (log entry 3). -/
def Obligations.DivremIdentity : Prop :=
  ∀ x y : Value, x.wf = true → y.wf = true →
    let q := (x.divrem Config.switches y).1
    let r := (x.divrem Config.switches y).2
    let z := (q.mul Config.switches y).add r
    q.nan = false →
      r.nan = false ∧ q.toNat % 10 ^ 36 = 0 ∧ r.toNat < y.toNat ∧
      q.toNat / 10 ^ 36 * y.toNat + r.toNat = x.toNat ∧
      (r.toNat ≠ 0 → r.neg = x.neg) ∧
      z.nan = false ∧ z.ovf = false ∧ z.toNat = x.toNat ∧ (x.toNat ≠ 0 → z.neg = x.neg) ∧
      (x.unf = false → y.unf = false → z.eq x = true)

/-- R161, QUANTA on naturals: the multiple count `k` is the truncated quotient rounded to zero places, and the result is
`k*y` with `x`'s sign. At the spec's setting of the switches (log entry 3). -/
def Obligations.QuantaResult : Prop :=
  ∀ (rd rs1 rs2 : Reg) (mode : Mode) (s : State), (s.reg rs1).wf = true → (s.reg rs2).wf = true →
    let x := s.reg rs1
    let y := s.reg rs2
    let Q := x.toNat * 10 ^ 36 / y.toNat
    let up : Bool := match mode with
      | .towards => false
      | .away => decide (Q % 10 ^ 36 ≠ 0)
      | .halfDown => decide (2 * (Q % 10 ^ 36 / 10 ^ 27) > 10 ^ 9)
      | .halfUp => decide (2 * (Q % 10 ^ 36) ≥ 10 ^ 36)
    let k := Q / 10 ^ 36 + if up then 1 else 0
    exec (.quanta rd rs1 rs2 mode) s = .next (s.setReg rd
      (if x.nan = true ∨ y.nan = true ∨ y.toNat = 0 then nanValue
       else if x.ovf = true ∨ y.ovf = true ∨ k ≥ 10 ^ 18 ∨ k * y.toNat ≥ 10 ^ 54 then overflowValue x.neg false
       else mkValue (x.neg && decide (k ≠ 0)) false (k * y.toNat)))

/-! ### Results: CMP, EQ (46_compare_equal.md) -/

/-- R170, CMP: the value left in RES, with magnitudes compared as numbers. -/
def Obligations.CmpResult : Prop :=
  ∀ (rs1 rs2 : Reg) (s : State), (s.reg rs1).wf = true → (s.reg rs2).wf = true →
    let x := s.reg rs1
    let y := s.reg rs2
    let less : Word := 0xFFFFFFFF
    let greater : Word := 0x00000001
    let smaller := if x.neg then greater else less
    let larger := if x.neg then less else greater
    exec (.cmp rs1 rs2) s = .next { s with res :=
      if x.nan = true then less
      else if y.nan = true then greater
      else if x.neg ≠ y.neg then (if x.neg then less else greater)
      else if x.ovf ≠ y.ovf then (if x.ovf then larger else smaller)
      else if x.toNat > y.toNat then larger
      else if x.toNat < y.toNat then smaller
      else if x.unf = true ∧ y.unf = false then larger
      else if y.unf = true ∧ x.unf = false then smaller
      else 0x00000000 }

/-- R171, EQ: RES is 1 exactly when neither operand is NaN, overflowed or underflowed and all six limb words are equal,
0 otherwise; among well-formed operands that is equality of sign and magnitude. -/
def Obligations.EqResult : Prop :=
  ∀ (rs1 rs2 : Reg) (s : State), (s.reg rs1).wf = true → (s.reg rs2).wf = true →
    let x := s.reg rs1
    let y := s.reg rs2
    let usable := x.nan = false ∧ y.nan = false ∧ x.ovf = false ∧ y.ovf = false ∧ x.unf = false ∧ y.unf = false
    ∃ w : Word, exec (.eq rs1 rs2) s = .next { s with res := w } ∧ (w = 0 ∨ w = 1) ∧
      (w = 1 ↔ usable ∧ ∀ j : Fin 6, x.limb j = y.limb j) ∧
      (w = 1 ↔ usable ∧ x.neg = y.neg ∧ x.toNat = y.toNat)

/-- R170 (g) and R171 (b): on values that are not NaN, CMP is antisymmetric and transitive, so a total preorder, and EQ
implies that CMP finds them equal. -/
def Obligations.CmpIsTotalPreorder : Prop :=
  ∀ x y z : Value, x.wf = true → y.wf = true → z.wf = true → x.nan = false → y.nan = false → z.nan = false →
    x.cmp y = -(y.cmp x) ∧ (x.cmp y ≤ 0 → y.cmp z ≤ 0 → x.cmp z ≤ 0) ∧ (x.eq y = true → x.cmp y = 0)

/-! ### Results: NEG, ABS (47_negate_abs.md) -/

/-- R180, NEG: NaN gives `NAN`; otherwise every bit is copied but the sign, which flips, except that an exact zero stays
non-negative. -/
def Obligations.NegResult : Prop :=
  ∀ (rd rs1 : Reg) (s : State), (s.reg rs1).wf = true →
    let x := s.reg rs1
    ∃ v : Value, exec (.neg rd rs1) s = .next (s.setReg rd v) ∧
      (x.nan = true → v = nanValue) ∧
      (x.nan = false →
        (∀ j : Fin 6, j ≠ 0 → v.limb j = x.limb j) ∧ magnitude v.limb0 = magnitude x.limb0 ∧
        v.neg = if x.toNat = 0 ∧ x.unf = false then false else !x.neg)

/-- R181, ABS: NaN gives `NAN`; otherwise every bit is copied but the sign, which is 0. -/
def Obligations.AbsResult : Prop :=
  ∀ (rd rs1 : Reg) (s : State), (s.reg rs1).wf = true →
    let x := s.reg rs1
    ∃ v : Value, exec (.abs rd rs1) s = .next (s.setReg rd v) ∧
      (x.nan = true → v = nanValue) ∧
      (x.nan = false →
        (∀ j : Fin 6, j ≠ 0 → v.limb j = x.limb j) ∧ magnitude v.limb0 = magnitude x.limb0 ∧ v.neg = false)

/-- R180 (d), R181 (c): NEG twice gives back every well-formed value that is not NaN, word for word; ABS after ABS and
ABS after NEG are ABS. -/
def Obligations.NegAbsLaws : Prop :=
  ∀ (rd rs1 : Reg) (s : State), (s.reg rs1).wf = true → (s.reg rs1).nan = false →
    ∃ n a n2 a2 na : State,
      exec (.neg rd rs1) s = .next n ∧ exec (.abs rd rs1) s = .next a ∧
      exec (.neg rd rd) n = .next n2 ∧ exec (.abs rd rd) a = .next a2 ∧ exec (.abs rd rd) n = .next na ∧
      n2.reg rd = s.reg rs1 ∧ a2.reg rd = a.reg rd ∧ na.reg rd = a.reg rd

/-! ### The host's texts (48_host_text_digits.md) -/

/-- R205, first part: turning a well-formed value into the digit buffer and back gives the value word for word, but for
a NaN, which comes back with its sign and NaN flags only. -/
def Obligations.DigitsRoundTrip : Prop :=
  ∀ v : Value, v.wf = true →
    toFixedDecimal (toDigits v) = if v.nan then packValue v.neg true false false zeroMags else v
end

