-- ==== Sys2Proof/Laws/Encoding.lean ====
section
/-! SUPPORT. The fields of a command word and the word of its fields are inverse to each other (30_encoding.md R71). -/

namespace Sys2Proof

/-- The word of the fields as a number: each field at its place in R71. -/
theorem toNat_wordOf (f : Fields) :
    (wordOf f).toNat = f.op.toNat * 2 ^ 24 + f.rd.toNat * 2 ^ 21 + f.rs1.toNat * 2 ^ 18 + f.rs2.toNat * 2 ^ 15
      + f.rr.toNat * 2 ^ 12 + f.mode.toNat * 2 ^ 10 + f.zero.toNat * 2 ^ 8 + f.places.toNat := by
  have app : ∀ {n m : Nat} (x : BitVec n) (y : BitVec m), (x ++ y).toNat = x.toNat * 2 ^ m + y.toNat := by
    intro n m x y
    rw [BitVec.toNat_append, ← Nat.shiftLeft_add_eq_or_of_lt y.isLt, Nat.shiftLeft_eq]
  have h : (wordOf f).toNat
      = (f.op ++ f.rd ++ f.rs1 ++ f.rs2 ++ f.rr ++ f.mode ++ f.zero ++ f.places : BitVec (8+3+3+3+3+2+2+8)).toNat := rfl
  rw [h, app, app, app, app, app, app, app]
  omega

theorem fieldsOf_wordOf (f : Fields) : fieldsOf (wordOf f) = f := by
  have h := toNat_wordOf f
  obtain ⟨op, rd, rs1, rs2, rr, mode, zero, places⟩ := f
  have h0 := op.isLt; have h1 := rd.isLt; have h2 := rs1.isLt; have h3 := rs2.isLt
  have h4 := rr.isLt; have h5 := mode.isLt; have h6 := zero.isLt; have h7 := places.isLt
  simp only at h
  simp only [fieldsOf, Fields.mk.injEq]
  refine ⟨?_, ?_, ?_, ?_, ?_, ?_, ?_, ?_⟩ <;> apply BitVec.eq_of_toNat_eq <;>
    rw [BitVec.extractLsb'_toNat, Nat.shiftRight_eq_div_pow, h] <;> omega

theorem wordOf_fieldsOf (c : Word) : wordOf (fieldsOf c) = c := by
  apply BitVec.eq_of_toNat_eq
  have h := c.isLt
  rw [toNat_wordOf]
  simp only [fieldsOf, BitVec.extractLsb'_toNat, Nat.shiftRight_eq_div_pow]
  omega

/-- Masking a command word masks its fields. -/
theorem wordOf_and (f g : Fields) : wordOf f &&& wordOf g =
    wordOf { op := f.op &&& g.op, rd := f.rd &&& g.rd, rs1 := f.rs1 &&& g.rs1, rs2 := f.rs2 &&& g.rs2,
             rr := f.rr &&& g.rr, mode := f.mode &&& g.mode, zero := f.zero &&& g.zero, places := f.places &&& g.places } := by
  have hf := fieldsOf_wordOf f
  have hg := fieldsOf_wordOf g
  rw [← wordOf_fieldsOf (wordOf f &&& wordOf g)]
  simp only [fieldsOf, Fields.ext_iff, BitVec.extractLsb'_and] at hf hg ⊢
  simp only [hf, hg]

end Sys2Proof
end

