-- ==== Sys2Proof/Laws/HostText.lean ====
section
/-! SUPPORT. What the host's text functions can do: the accepted scan, and the integer digits of a buffer. -/

namespace Sys2Proof.Machine

/-- A buffer that holds all its integer digits (R191's invariant `pointIndex <= digitCount`) needs no zeros after them. -/
@[simp] theorem DigitBuffer.intDigits_of_le (b : DigitBuffer) (h : b.pointIndex ≤ b.digits.length) :
    b.intDigits = b.digits.take b.pointIndex := by
  simp [DigitBuffer.intDigits, Nat.sub_eq_zero_of_le h]

/-- A buffer has `pointIndex` integer digits, always. -/
@[simp] theorem DigitBuffer.length_intDigits (b : DigitBuffer) : b.intDigits.length = b.pointIndex := by
  simp only [DigitBuffer.intDigits, List.length_append, List.length_take, List.length_replicate]
  omega

/-- An accepted text passed both scans, has a mantissa digit, and an exponent digit after an exponent marker (R194). -/
theorem scanText_ok {slots : Nat} {t : List Char} {p : Prefix} {s : Scan} (h : scanText slots t = .ok (p, s)) :
    ∃ rest, scanPrefix {} t = .ok (p, rest) ∧ scanDigits slots {} rest = .ok s ∧
      s.sawDigit = true ∧ (s.sawExp = true → s.expDigits ≠ 0) := by
  unfold scanText at h
  split at h
  · cases h
  next q rest hq =>
    split at h
    · cases h
    next s' hs =>
      split at h
      · cases h
      next he =>
        split at h
        · cases h
        next hd =>
          cases h
          exact ⟨rest, hq, hs, by simpa using hd, by simpa using he⟩

end Sys2Proof.Machine
end

