-- ==== Sys2Proof/Laws/Operands.lean ====
section
/-! SUPPORT. The record view of a packed value, and `N` against `limbs` (00_scope.md R10, 10_state.md R21, R22). -/

namespace Sys2Proof.Machine

open Config

/-! ### The limb word -/

theorem mag_eq (w : Word) : mag w = w.toNat % 2 ^ 31 := by
  simp [mag, magnitude, BitVec.extractLsb'_toNat]

theorem flag_eq (w : Word) : flag w = decide (2 ^ 31 ≤ w.toNat) := by
  have h := w.isLt
  simp only [flag, BitVec.getLsbD, Nat.testBit_eq_decide_div_mod_eq]
  congr 1
  apply propext
  omega

theorem toNat_setFlag (w : Word) (b : Bool) : (setFlag w b).toNat = b.toNat * 2 ^ 31 + w.toNat % 2 ^ 31 := by
  have h := BitVec.toNat_append (BitVec.ofBool b) (w.extractLsb' 0 31)
  have hl : (w.extractLsb' 0 31).toNat = w.toNat % 2 ^ 31 := by simp [BitVec.extractLsb'_toNat]
  rw [← Nat.shiftLeft_add_eq_or_of_lt (BitVec.isLt _), hl, Nat.shiftLeft_eq, BitVec.toNat_ofBool] at h
  exact h

theorem toNat_limbWord (b : Bool) (m : Nat) : (limbWord b m).toNat = b.toNat * 2 ^ 31 + m % 2 ^ 31 := by
  have h := BitVec.toNat_append ((0 : Word).extractLsb' 31 1) ((BitVec.ofNat 32 m).extractLsb' 0 31)
  have hl : ((BitVec.ofNat 32 m).extractLsb' 0 31).toNat = m % 2 ^ 31 := by
    simp only [BitVec.extractLsb'_toNat, BitVec.toNat_ofNat, Nat.shiftRight_zero]; omega
  rw [← Nat.shiftLeft_add_eq_or_of_lt (BitVec.isLt _), hl] at h
  have h0 : ((0 : Word).extractLsb' 31 1).toNat = 0 := by decide
  rw [h0, Nat.zero_shiftLeft, Nat.zero_add] at h
  have hm : (setMagnitude 0 (BitVec.ofNat 32 m)).toNat = m % 2 ^ 31 := h
  rw [limbWord, toNat_setFlag, hm, Nat.mod_mod]

@[simp] theorem flag_limbWord (b : Bool) (m : Nat) : flag (limbWord b m) = b := by
  rw [flag_eq, toNat_limbWord]; cases b <;> simp; omega

theorem mag_limbWord (b : Bool) {m : Nat} (h : m < 2 ^ 31) : mag (limbWord b m) = m := by
  rw [mag_eq, toNat_limbWord]; cases b <;> simp only [Bool.toNat_true, Bool.toNat_false] <;> omega

theorem mag_limbWord_of_lt (b : Bool) {m : Nat} (h : m < radix) : mag (limbWord b m) = m :=
  mag_limbWord b (by simp only [radix] at h; omega)

/-- A word is determined by its flag and its magnitude. -/
theorem word_ext {v w : Word} (hf : flag v = flag w) (hm : mag v = mag w) : v = w := by
  rw [flag_eq, flag_eq] at hf
  rw [mag_eq, mag_eq] at hm
  apply BitVec.eq_of_toNat_eq
  have hv := v.isLt; have hw := w.isLt
  have hf' : 2 ^ 31 ≤ v.toNat ↔ 2 ^ 31 ≤ w.toNat := by simpa using hf
  omega

@[simp] theorem flag_setFlag (w : Word) (b : Bool) : flag (setFlag w b) = b := by
  rw [flag_eq, toNat_setFlag]; cases b <;> simp; omega

@[simp] theorem mag_setFlag (w : Word) (b : Bool) : mag (setFlag w b) = mag w := by
  rw [mag_eq, mag_eq, toNat_setFlag]; cases b <;> simp only [Bool.toNat_true, Bool.toNat_false] <;> omega

theorem mag_lt (w : Word) : mag w < 2 ^ 31 := by rw [mag_eq]; omega

/-- A word is its flag and its magnitude. -/
theorem limbWord_flag_mag (w : Word) : limbWord (flag w) (mag w) = w :=
  word_ext (by simp) (mag_limbWord _ (mag_lt w))

@[simp] theorem setFlag_limbWord (b c : Bool) (m : Nat) : setFlag (limbWord b m) c = limbWord c m := by
  apply BitVec.eq_of_toNat_eq
  rw [toNat_setFlag, toNat_limbWord, toNat_limbWord]
  cases b <;> cases c <;> simp only [Bool.toNat_true, Bool.toNat_false] <;> omega

@[simp] theorem setFlag_flag (w : Word) : setFlag w (flag w) = w := by
  apply word_ext <;> simp

@[simp] theorem setFlag_setFlag (w : Word) (b c : Bool) : setFlag (setFlag w b) c = setFlag w c := by
  apply word_ext <;> simp

/-! ### Magnitudes in range -/

theorem Mags.inRange_iff (a : Mags) : a.inRange = true ↔
    a.m0 < radix ∧ a.m1 < radix ∧ a.m2 < radix ∧ a.m3 < radix ∧ a.m4 < radix ∧ a.m5 < radix := by
  simp [Mags.inRange, and_assoc]

@[simp] theorem inRange_zeroMags : zeroMags.inRange = true := by decide
@[simp] theorem inRange_maxMags : maxMags.inRange = true := by decide
@[simp] theorem isZero_zeroMags : zeroMags.isZero = true := by decide
@[simp] theorem isZero_maxMags : maxMags.isZero = false := by decide
@[simp] theorem toNat_zeroMags : zeroMags.toNat = 0 := by decide

theorem Mags.isZero_iff (a : Mags) : a.isZero = true ↔ a = zeroMags := by
  cases a; simp [Mags.isZero, zeroMags, and_assoc]

/-- A magnitude array is zero exactly when the number it denotes is. -/
theorem Mags.isZero_iff_toNat (a : Mags) : a.isZero = true ↔ a.toNat = 0 := by
  cases a; simp only [Mags.isZero, Mags.toNat, radix, Bool.and_eq_true, beq_iff_eq]; omega

/-- In range, the number is below 10^54. -/
theorem Mags.toNat_lt {a : Mags} (h : a.inRange = true) : a.toNat < capacity := by
  rw [Mags.inRange_iff] at h
  cases a; simp only [Mags.toNat, radix, capacity] at *; omega

@[simp] theorem inRange_limbs (n : Nat) : (limbs n).inRange = true := by
  rw [Mags.inRange_iff]; simp only [limbs, radix]; omega

/-- `N(limbs(n)) = n` for `n <= MAXN` (R10). -/
theorem toNat_limbs {n : Nat} (h : n < capacity) : (limbs n).toNat = n := by
  simp only [limbs, Mags.toNat, radix, capacity] at *; omega

/-- `limbs(N(a)) = a` for limbs in range (R10). -/
theorem limbs_toNat {a : Mags} (h : a.inRange = true) : limbs a.toNat = a := by
  rw [Mags.inRange_iff] at h
  cases a
  simp only [limbs, Mags.toNat, radix, Mags.mk.injEq] at *
  omega

/-- Arrays in range that denote one number are equal. -/
theorem mags_eq_of_toNat {a b : Mags} (ha : a.inRange = true) (hb : b.inRange = true) (h : a.toNat = b.toNat) :
    a = b := by
  rw [← limbs_toNat ha, h, limbs_toNat hb]

@[simp] theorem limbs_zero : limbs 0 = zeroMags := by decide

/-! ### The record view of a packed value -/

@[simp] theorem neg_packValue (s n o u : Bool) (m : Mags) : (packValue s n o u m).neg = s := by
  simp [Value.neg, packValue]
@[simp] theorem nan_packValue (s n o u : Bool) (m : Mags) : (packValue s n o u m).nan = n := by
  simp [Value.nan, packValue]
@[simp] theorem ovf_packValue (s n o u : Bool) (m : Mags) : (packValue s n o u m).ovf = o := by
  simp [Value.ovf, packValue]
@[simp] theorem unf_packValue (s n o u : Bool) (m : Mags) : (packValue s n o u m).unf = u := by
  simp [Value.unf, packValue]
@[simp] theorem reservedZero_packValue (s n o u : Bool) (m : Mags) : (packValue s n o u m).reservedZero = true := by
  simp [Value.reservedZero, packValue]

theorem mags_packValue (s n o u : Bool) {m : Mags} (h : m.inRange = true) : (packValue s n o u m).mags = m := by
  rw [Mags.inRange_iff] at h
  obtain ⟨h0, h1, h2, h3, h4, h5⟩ := h
  cases m
  simp_all [Value.mags, packValue, mag_limbWord_of_lt]

/-- A value with clear reserved bits is its record view. -/
theorem packValue_record {v : Value} (h : v.reservedZero = true) :
    packValue v.neg v.nan v.ovf v.unf v.mags = v := by
  simp only [Value.reservedZero, Bool.and_eq_true, Bool.not_eq_true'] at h
  cases v
  simp only [packValue, Value.neg, Value.nan, Value.ovf, Value.unf, Value.mags] at *
  simp only [Value.mk.injEq, limbWord_flag_mag, true_and]
  exact ⟨by rw [← h.1, limbWord_flag_mag], by rw [← h.2, limbWord_flag_mag]⟩

@[simp] theorem setNeg_packValue (s n o u b : Bool) (m : Mags) : (packValue s n o u m).setNeg b = packValue b n o u m := by
  simp [Value.setNeg, packValue]

@[simp] theorem nan_setNeg (v : Value) (b : Bool) : (v.setNeg b).nan = v.nan := rfl
@[simp] theorem ovf_setNeg (v : Value) (b : Bool) : (v.setNeg b).ovf = v.ovf := rfl
@[simp] theorem unf_setNeg (v : Value) (b : Bool) : (v.setNeg b).unf = v.unf := rfl
@[simp] theorem reservedZero_setNeg (v : Value) (b : Bool) : (v.setNeg b).reservedZero = v.reservedZero := rfl
@[simp] theorem neg_setNeg (v : Value) (b : Bool) : (v.setNeg b).neg = b := by simp [Value.neg, Value.setNeg]
@[simp] theorem mags_setNeg (v : Value) (b : Bool) : (v.setNeg b).mags = v.mags := by
  simp [Value.mags, Value.setNeg]
@[simp] theorem isZero_setNeg (v : Value) (b : Bool) : (v.setNeg b).isZero = v.isZero := by simp [Value.isZero]

@[simp] theorem zeroValue_eq : packValue false false false false zeroMags = zeroValue := by decide
@[simp] theorem wf_zeroValue : zeroValue.wf = true := by decide
@[simp] theorem wf_nanValue : nanValue.wf = true := by decide
@[simp] theorem nan_nanValue : nanValue.nan = true := by decide
@[simp] theorem wf_overflowValue (s u : Bool) : (overflowValue s u).wf = true := by
  cases s <;> cases u <;> decide

/-! ### Well-formedness (R25) -/

/-- What `wf` gives for a value that is not NaN. -/
theorem wf_finite {v : Value} (h : v.wf = true) (hn : v.nan = false) :
    v.mags.inRange = true ∧ v.reservedZero = true ∧ (v.ovf = true → v.mags = maxMags) ∧
      (v.neg = true → v.isZero = true → v.unf = true) := by
  simp only [Value.wf, hn, Bool.false_or, Bool.and_eq_true, Bool.or_eq_true, Bool.not_eq_true', beq_iff_eq,
    Bool.and_eq_false_iff, Bool.not_eq_false'] at h
  obtain ⟨⟨⟨h1, h2⟩, h3⟩, h4⟩ := h
  refine ⟨h1, h2, fun ho => h3.resolve_left (by simp [ho]), fun hs hz => ?_⟩
  rcases h4 with (h4 | h4) | h4
  · simp [hs] at h4
  · simp [hz] at h4
  · exact h4

/-- A finite result with limbs in range is well-formed when it is no negative exact zero. -/
theorem wf_packValue_finite {s u : Bool} {m : Mags} (hm : m.inRange = true)
    (hz : s = true → m.isZero = true → u = true) : (finite s u m).wf = true := by
  have hmags : (packValue s false false u m).mags = m := mags_packValue _ _ _ _ hm
  simp only [finite, Value.wf, nan_packValue, ovf_packValue, neg_packValue, unf_packValue, reservedZero_packValue,
    Value.isZero, hmags, hm, Bool.false_or, Bool.true_and, Bool.not_false, Bool.true_or]
  cases s <;> simp_all
  cases hzz : m.isZero <;> simp_all

/-- The last step of MUL, DIV and ROUND on a finite result: the sign wanted, unless the result is an exact zero
(R92). -/
theorem withSign_finite (u s : Bool) {m : Mags} (hm : m.inRange = true) :
    withSign (finite false u m) s = finite (s && (!m.isZero || u)) u m := by
  have hmags : (packValue false false false u m).mags = m := mags_packValue _ _ _ _ hm
  simp only [withSign, finite, sbn, nan_packValue, unf_packValue, Value.isZero, hmags, setNeg_packValue]
  cases u <;> cases s <;> cases m.isZero <;> simp

theorem wf_withSign_finite (u s : Bool) {m : Mags} (hm : m.inRange = true) :
    (withSign (finite false u m) s).wf = true := by
  rw [withSign_finite u s hm]
  apply wf_packValue_finite hm
  cases s <;> cases m.isZero <;> simp

end Sys2Proof.Machine
end

