-- ==== Sys2Proof/Laws/Limbs.lean ====
section
/-! SUPPORT. What the six-limb adder, subtractor and comparator do, said once on naturals (40_value_primitives.md R93,
R94, R95). -/

namespace Sys2Proof.Machine

open Config

/-- Six adder cells in a row add six-limb numbers. -/
theorem cells_chain {a0 a1 a2 a3 a4 a5 b0 b1 b2 b3 b4 b5 z0 z1 z2 z3 z4 z5 c0 c1 c2 c3 c4 c5 : Nat}
    (h5 : z5 + radix * c5 = a5 + b5 + 0) (h4 : z4 + radix * c4 = a4 + b4 + c5)
    (h3 : z3 + radix * c3 = a3 + b3 + c4) (h2 : z2 + radix * c2 = a2 + b2 + c3)
    (h1 : z1 + radix * c1 = a1 + b1 + c2) (h0 : z0 + radix * c0 = a0 + b0 + c1) :
    (Mags.mk z0 z1 z2 z3 z4 z5).toNat + capacity * c0
      = (Mags.mk a0 a1 a2 a3 a4 a5).toNat + (Mags.mk b0 b1 b2 b3 b4 b5).toNat := by
  simp only [Mags.toNat, radix, capacity] at *
  omega

/-- Six subtractor cells in a row subtract six-limb numbers. -/
theorem borrow_chain {a0 a1 a2 a3 a4 a5 b0 b1 b2 b3 b4 b5 z0 z1 z2 z3 z4 z5 c0 c1 c2 c3 c4 c5 : Nat}
    (h5 : z5 + b5 + 0 = a5 + radix * c5) (h4 : z4 + b4 + c5 = a4 + radix * c4)
    (h3 : z3 + b3 + c4 = a3 + radix * c3) (h2 : z2 + b2 + c3 = a2 + radix * c2)
    (h1 : z1 + b1 + c2 = a1 + radix * c1) (h0 : z0 + b0 + c1 = a0 + radix * c0) :
    (Mags.mk z0 z1 z2 z3 z4 z5).toNat + (Mags.mk b0 b1 b2 b3 b4 b5).toNat
      = (Mags.mk a0 a1 a2 a3 a4 a5).toNat + capacity * c0 := by
  simp only [Mags.toNat, radix, capacity] at *
  omega

theorem addCell_spec {a b c : Nat} (ha : a < radix) (hb : b < radix) (hc : c ≤ 1) :
    (addCell a b c).1 < radix ∧ (addCell a b c).2 ≤ 1 ∧ (addCell a b c).1 + radix * (addCell a b c).2 = a + b + c := by
  simp only [addCell, radix] at *
  split <;> simp only <;> omega

/-- `AddMag` (R93): limbs in range, a carry of at most 1, and together they are the sum. -/
theorem addMag_spec {a b : Mags} (ha : a.inRange = true) (hb : b.inRange = true) :
    (addMag a b).1.inRange = true ∧ (addMag a b).2 ≤ 1 ∧
      (addMag a b).1.toNat + capacity * (addMag a b).2 = a.toNat + b.toNat := by
  rw [Mags.inRange_iff] at ha hb ⊢
  obtain ⟨a0, a1, a2, a3, a4, a5⟩ := ha
  obtain ⟨b0, b1, b2, b3, b4, b5⟩ := hb
  have h5 := addCell_spec a5 b5 (Nat.zero_le 1)
  have h4 := addCell_spec a4 b4 h5.2.1
  have h3 := addCell_spec a3 b3 h4.2.1
  have h2 := addCell_spec a2 b2 h3.2.1
  have h1 := addCell_spec a1 b1 h2.2.1
  have h0 := addCell_spec a0 b0 h1.2.1
  have hs := cells_chain h5.2.2 h4.2.2 h3.2.2 h2.2.2 h1.2.2 h0.2.2
  simp only [addMag]
  generalize capacity = C at hs ⊢
  exact ⟨⟨h0.1, h1.1, h2.1, h3.1, h4.1, h5.1⟩, h0.2.1, hs⟩

theorem subCell_spec {a b c : Nat} (ha : a < radix) (hb : b < radix) (hc : c ≤ 1) :
    (subCell a b c).1 < radix ∧ (subCell a b c).2 ≤ 1 ∧ (subCell a b c).1 + b + c = a + radix * (subCell a b c).2 := by
  simp only [subCell, radix] at *
  split <;> simp only <;> omega

/-- `SubMag` (R94): limbs in range, a borrow of at most 1, and together they are the difference. -/
theorem subMag_spec {a b : Mags} (ha : a.inRange = true) (hb : b.inRange = true) :
    (subMag a b).1.inRange = true ∧ (subMag a b).2 ≤ 1 ∧
      (subMag a b).1.toNat + b.toNat = a.toNat + capacity * (subMag a b).2 := by
  rw [Mags.inRange_iff] at ha hb ⊢
  obtain ⟨a0, a1, a2, a3, a4, a5⟩ := ha
  obtain ⟨b0, b1, b2, b3, b4, b5⟩ := hb
  have h5 := subCell_spec a5 b5 (Nat.zero_le 1)
  have h4 := subCell_spec a4 b4 h5.2.1
  have h3 := subCell_spec a3 b3 h4.2.1
  have h2 := subCell_spec a2 b2 h3.2.1
  have h1 := subCell_spec a1 b1 h2.2.1
  have h0 := subCell_spec a0 b0 h1.2.1
  have hs := borrow_chain h5.2.2 h4.2.2 h3.2.2 h2.2.2 h1.2.2 h0.2.2
  simp only [subMag]
  generalize capacity = C at hs ⊢
  exact ⟨⟨h0.1, h1.1, h2.1, h3.1, h4.1, h5.1⟩, h0.2.1, hs⟩

/-- With `N(a) >= N(b)`, the way every command calls it, `SubMag` borrows nothing and gives `limbs(N(a) - N(b))`. -/
theorem subMag_of_le {a b : Mags} (ha : a.inRange = true) (hb : b.inRange = true) (h : b.toNat ≤ a.toNat) :
    subMag a b = (limbs (a.toNat - b.toNat), 0) := by
  obtain ⟨hr, hc, hs⟩ := subMag_spec ha hb
  have hlt := Mags.toNat_lt ha
  have hz := Mags.toNat_lt hr
  have hc0 : (subMag a b).2 = 0 := by
    simp only [capacity] at *; omega
  have hn : (subMag a b).1.toNat = a.toNat - b.toNat := by rw [hc0] at hs; omega
  rw [← hn, limbs_toNat hr, ← hc0]

/-- One limb of the comparison: limbs below the radix decide over everything below them. -/
theorem cmp_cell {R a b x y X Y : Nat} (hx : x < R) (hy : y < R) (hX : X = a * R + x) (hY : Y = b * R + y) :
    (X > Y ↔ a > b ∨ (a = b ∧ x > y)) ∧ (X < Y ↔ a < b ∨ (a = b ∧ x < y)) := by
  subst hX hY
  rcases Nat.lt_trichotomy a b with h | h | h
  · have : (a + 1) * R ≤ b * R := Nat.mul_le_mul_right _ h
    constructor <;> constructor <;> intro _ <;> simp_all [Nat.add_mul] <;> omega
  · subst h; simp
  · have : (b + 1) * R ≤ a * R := Nat.mul_le_mul_right _ h
    constructor <;> constructor <;> intro _ <;> simp_all [Nat.add_mul] <;> omega

/-- The comparator's scan compares the numbers that follow two prefixes `x` and `y`. -/
theorem cmpLimbs_foldl {R : Nat} (as bs : List Nat) (hl : as.length = bs.length) (ha : ∀ d ∈ as, d < R)
    (hb : ∀ d ∈ bs, d < R) (x y : Nat) :
    (if as.foldl (fun n d => n * R + d) x > bs.foldl (fun n d => n * R + d) y then (1 : Int)
      else if as.foldl (fun n d => n * R + d) x < bs.foldl (fun n d => n * R + d) y then -1 else 0)
      = if x > y then 1 else if x < y then -1 else cmpLimbs as bs := by
  induction as generalizing bs x y with
  | nil =>
    cases bs with
    | nil => rfl
    | cons b bs => simp at hl
  | cons a as ih =>
    cases bs with
    | nil => simp at hl
    | cons b bs =>
      have hR := cmp_cell (a := x) (b := y) (ha a (by simp)) (hb b (by simp)) rfl rfl
      rw [List.foldl_cons, List.foldl_cons, ih bs (by simpa using hl) (fun d hd => ha d (by simp [hd]))
        (fun d hd => hb d (by simp [hd]))]
      simp only [hR.1, hR.2, cmpLimbs]
      repeat' split
      all_goals first | rfl | omega

theorem limbsValue_toList (a : Mags) : limbsValue a.toList = a.toNat := by
  simp [limbsValue, Mags.toList, Mags.toNat]

theorem toList_lt {a : Mags} (h : a.inRange = true) : ∀ d ∈ a.toList, d < radix := by
  rw [Mags.inRange_iff] at h
  simp only [Mags.toList, List.mem_cons, List.not_mem_nil, or_false]
  rintro d (rfl | rfl | rfl | rfl | rfl | rfl) <;> simp [h]

/-- `CmpMag` (R95) is the comparison of the numbers. -/
theorem cmpMag_spec {a b : Mags} (ha : a.inRange = true) (hb : b.inRange = true) :
    cmpMag a b = if a.toNat > b.toNat then 1 else if a.toNat < b.toNat then -1 else 0 := by
  have h := cmpLimbs_foldl a.toList b.toList rfl (toList_lt ha) (toList_lt hb) 0 0
  rw [← limbsValue_toList, ← limbsValue_toList, limbsValue, limbsValue, h]
  simp [cmpMag]

end Sys2Proof.Machine
end

