-- ==== Sys2Proof/Laws/State.lean ====
section
/-! SUPPORT. One lemma per field per update of the state, so that no later proof unfolds a record update. -/

namespace Sys2Proof.Machine

@[simp] theorem reg_setReg_self (s : State) (r : Reg) (v : Value) : (s.setReg r v).reg r = v := by
  simp [State.setReg, State.reg]

theorem reg_setReg_ne (s : State) {r q : Reg} (v : Value) (h : q ≠ r) : (s.setReg r v).reg q = s.reg q := by
  have hn : (r : Nat) ≠ q := fun e => h (Fin.ext e.symm)
  simp [State.setReg, State.reg, Vector.getElem_set_ne, hn]

theorem reg_setReg (s : State) (r q : Reg) (v : Value) :
    (s.setReg r v).reg q = if q = r then v else s.reg q := by
  by_cases h : q = r
  · subst h; simp
  · simp [h, reg_setReg_ne s v h]

@[simp] theorem res_setReg (s : State) (r : Reg) (v : Value) : (s.setReg r v).res = s.res := rfl
@[simp] theorem ill_setReg (s : State) (r : Reg) (v : Value) : (s.setReg r v).ill = s.ill := rfl
@[simp] theorem host_setReg (s : State) (r : Reg) (v : Value) : (s.setReg r v).host = s.host := rfl
@[simp] theorem answer_setReg (s : State) (r : Reg) (v : Value) : (s.setReg r v).answer = s.answer := rfl
@[simp] theorem status_setReg (s : State) (r : Reg) (v : Value) : (s.setReg r v).status = s.status := rfl

@[simp] theorem reg_setRes (s : State) (w : Word) (r : Reg) : (s.setRes w).reg r = s.reg r := rfl
@[simp] theorem regs_setRes (s : State) (w : Word) : (s.setRes w).regs = s.regs := rfl
@[simp] theorem res_setRes (s : State) (w : Word) : (s.setRes w).res = w := rfl
@[simp] theorem ill_setRes (s : State) (w : Word) : (s.setRes w).ill = s.ill := rfl
@[simp] theorem host_setRes (s : State) (w : Word) : (s.setRes w).host = s.host := rfl
@[simp] theorem answer_setRes (s : State) (w : Word) : (s.setRes w).answer = s.answer := rfl

@[simp] theorem reg_raiseIll (s : State) (r : Reg) : s.raiseIll.reg r = s.reg r := rfl
@[simp] theorem regs_raiseIll (s : State) : s.raiseIll.regs = s.regs := rfl
@[simp] theorem res_raiseIll (s : State) : s.raiseIll.res = s.res := rfl
@[simp] theorem ill_raiseIll (s : State) : s.raiseIll.ill = true := rfl
@[simp] theorem host_raiseIll (s : State) : s.raiseIll.host = s.host := rfl
@[simp] theorem answer_raiseIll (s : State) : s.raiseIll.answer = s.answer := rfl

@[simp] theorem reg_takeEvent (s : State) (l : List HostEvent) (r : Reg) : (s.takeEvent l).reg r = s.reg r := rfl
@[simp] theorem regs_takeEvent (s : State) (l : List HostEvent) : (s.takeEvent l).regs = s.regs := rfl
@[simp] theorem res_takeEvent (s : State) (l : List HostEvent) : (s.takeEvent l).res = s.res := rfl
@[simp] theorem ill_takeEvent (s : State) (l : List HostEvent) : (s.takeEvent l).ill = s.ill := rfl
@[simp] theorem host_takeEvent (s : State) (l : List HostEvent) : (s.takeEvent l).host = l := rfl
@[simp] theorem answer_takeEvent (s : State) (l : List HostEvent) : (s.takeEvent l).answer = none := rfl
@[simp] theorem readWord_takeEvent (s : State) (l : List HostEvent) (off : Nat) :
    (s.takeEvent l).readWord off = s.readWord off := rfl

@[simp] theorem reg_reset (r : Reg) : State.reset.reg r = zeroValue := by
  simp [State.reset, State.reg]
@[simp] theorem res_reset : State.reset.res = 0 := rfl
@[simp] theorem ill_reset : State.reset.ill = false := rfl
@[simp] theorem host_reset : State.reset.host = [] := rfl
@[simp] theorem answer_reset : State.reset.answer = none := rfl

@[simp] theorem reg_doReset (s : State) (r : Reg) : s.doReset.reg r = zeroValue := by
  simp [State.doReset, State.reset, State.reg]
@[simp] theorem res_doReset (s : State) : s.doReset.res = 0 := rfl
@[simp] theorem ill_doReset (s : State) : s.doReset.ill = false := rfl
@[simp] theorem host_doReset (s : State) : s.doReset.host = s.host := rfl
@[simp] theorem answer_doReset (s : State) : s.doReset.answer = none := rfl

/-- Two states are equal when every register and every other field is. -/
theorem State.ext_reg {s t : State} (hr : ∀ r, s.reg r = t.reg r) (hres : s.res = t.res) (hill : s.ill = t.ill)
    (hh : s.host = t.host) (ha : s.answer = t.answer) : s = t := by
  have hregs : s.regs = t.regs := Vector.ext fun i hi => hr ⟨i, hi⟩
  cases s; cases t; simp_all

/-! ### Limb words of a value -/

@[simp] theorem limb_setLimb_self (v : Value) (i : Fin 6) (w : Word) : (v.setLimb i w).limb i = w := by
  fin_cases i <;> rfl

theorem limb_setLimb_ne (v : Value) {i j : Fin 6} (w : Word) (h : j ≠ i) : (v.setLimb i w).limb j = v.limb j := by
  fin_cases i <;> fin_cases j <;> first | exact absurd rfl h | rfl

/-- Two values are equal when their six limb words are. -/
theorem Value.ext_limb {v w : Value} (h : ∀ i, v.limb i = w.limb i) : v = w := by
  have h0 := h 0; have h1 := h 1; have h2 := h 2; have h3 := h 3; have h4 := h 4; have h5 := h 5
  cases v; cases w; simp_all [Value.limb]

end Sys2Proof.Machine
end

