-- ==== Sys2Proof/Laws/Ops.lean ====
section
/-! SUPPORT. Said once: what reading a command's sources, a bus transaction and one event of the host can answer. -/

namespace Sys2Proof.Machine

/-! ### A command's sources -/

theorem withSource_next {a : Reg} {s : State} (k : Value → State) (h : (s.reg a).wf = true) :
    withSource a s k = .next (k (s.reg a)) := by simp [withSource, h]

theorem withSources_next {a b : Reg} {s : State} (k : Value → Value → State) (ha : (s.reg a).wf = true)
    (hb : (s.reg b).wf = true) : withSources a b s k = .next (k (s.reg a) (s.reg b)) := by
  simp [withSources, ha, hb]

/-- A one-source command that answers a next state had a well-formed source. -/
theorem withSource_inv {a : Reg} {s t : State} {k : Value → State} (h : withSource a s k = .next t) :
    (s.reg a).wf = true ∧ t = k (s.reg a) := by
  unfold withSource at h
  split at h
  · rename_i hw
    exact ⟨hw, (Host.Outcome.next.inj h).symm⟩
  · cases h

/-- A two-source command that answers a next state had two well-formed sources. -/
theorem withSources_inv {a b : Reg} {s t : State} {k : Value → Value → State} (h : withSources a b s k = .next t) :
    (s.reg a).wf = true ∧ (s.reg b).wf = true ∧ t = k (s.reg a) (s.reg b) := by
  unfold withSources at h
  split at h
  · rename_i ha
    split at h
    · rename_i hb
      exact ⟨ha, hb, (Host.Outcome.next.inj h).symm⟩
    · cases h
  · cases h

/-! ### The address map (20_memory.md R51) -/

theorem locate_limb (r : Reg) (i : Fin 6) : locate (0x20 * r.val + 4 * i.val) = .limb r i := by
  fin_cases r <;> fin_cases i <;> rfl

@[simp] theorem locate_cmd : locate 0x100 = .cmd := rfl
@[simp] theorem locate_res : locate 0x104 = .res := rfl
@[simp] theorem locate_status : locate 0x108 = .status := rfl

theorem locate_eq_cmd {off : Nat} (h : locate off = .cmd) : off = 0x100 := by
  unfold locate at h
  split at h
  · simp only at h; split at h <;> cases h
  · split at h
    · assumption
    · split at h
      · cases h
      · split at h <;> cases h

theorem isTransaction_limb (r : Reg) (i : Fin 6) : isTransaction (0x20 * r.val + 4 * i.val) = true := by
  fin_cases r <;> fin_cases i <;> rfl

/-! ### Bus transactions (R52, R53) -/

theorem busRead_inv {off : Nat} {s t : State} (h : busRead off s = .next t) :
    isTransaction off = true ∧ t = { s with answer := some (s.readWord off) } := by
  unfold busRead at h
  split at h
  · rename_i ht
    exact ⟨ht, (Host.Outcome.next.inj h).symm⟩
  · cases h

theorem busWrite_inv {off : Nat} {w : Word} {s t : State}
    {k : Word → State → Host.Outcome State Fault Refusal} (h : busWrite off w s k = .next t) :
    isTransaction off = true ∧
      ((off = 0x100 ∧ k w s = .next t) ∨ (locate off ≠ .cmd ∧ t = s.writeWord off w)) := by
  unfold busWrite at h
  split at h
  · rename_i ht
    split at h
    · rename_i hc
      exact ⟨ht, .inl ⟨locate_eq_cmd hc, h⟩⟩
    · rename_i hc
      exact ⟨ht, .inr ⟨hc, (Host.Outcome.next.inj h).symm⟩⟩
  · cases h

/-- A write at any offset but CMD's leaves RES, ILL, the host's events and the answer. -/
theorem writeWord_frame (s : State) (off : Nat) (w : Word) :
    (s.writeWord off w).res = s.res ∧ (s.writeWord off w).ill = s.ill ∧ (s.writeWord off w).host = s.host ∧
      (s.writeWord off w).answer = s.answer := by
  unfold State.writeWord
  split <;> simp

/-- Issue of a word that decodes (30_encoding.md R76). -/
theorem issue_ok {c : Word} {i : Instr} (h : decode c = .ok i) (s : State) : issue c s = exec i s := by
  simp [issue, h]

/-- Issue of an illegal word (R75). -/
theorem issue_error {c : Word} {e : Illegal} (h : decode c = .error e) (s : State) : issue c s = .next s.raiseIll := by
  simp [issue, h]

end Sys2Proof.Machine
end

