-- ==== Sys2Proof/Laws/PerInstr.lean ====
section
/-! SUPPORT. The per-instruction family `TableMatch`: the encoding of a command carries its row of
spec/opcode_table.json, `c and mask = match` (30_encoding.md R72). -/

namespace Sys2Proof.Laws

/-- `match` of the instruction's row: the opcode at the top byte (R72, R74). -/
def tableMatch (i : Instr) : Word :=
  match i with
  | .add _ _ _ => 0x01000000
  | .sub _ _ _ => 0x02000000
  | .mul _ _ _ => 0x03000000
  | .div _ _ _ => 0x04000000
  | .divrem _ _ _ _ => 0x05000000
  | .round _ _ _ _ => 0x06000000
  | .quanta _ _ _ _ => 0x07000000
  | .cmp _ _ => 0x08000000
  | .eq _ _ => 0x09000000
  | .neg _ _ => 0x0A000000
  | .abs _ _ => 0x0B000000

/-- `mask` of the instruction's row (R72). -/
def tableMask (i : Instr) : Word :=
  match i with
  | .add _ _ _ => 0xFF007FFF
  | .sub _ _ _ => 0xFF007FFF
  | .mul _ _ _ => 0xFF007FFF
  | .div _ _ _ => 0xFF007FFF
  | .divrem _ _ _ _ => 0xFF000FFF
  | .round _ _ _ _ => 0xFF03F300
  | .quanta _ _ _ _ => 0xFF0073FF
  | .cmp _ _ => 0xFFE07FFF
  | .eq _ _ => 0xFFE07FFF
  | .neg _ _ => 0xFF03FFFF
  | .abs _ _ => 0xFF03FFFF

/-- The word of an instruction meets `c and mask = match` for its row of the table. -/
def TableMatch.Statement (i : Instr) : Prop := encode i &&& tableMask i = tableMatch i

/-- A row's test, field by field: a field under an all-ones mask is read, a field under a zero mask is free. -/
theorem tableMatch_of_fields {f g h : Fields} {mask mtch : Word} (hm : wordOf g = mask) (ht : wordOf h = mtch)
    (ho : f.op &&& g.op = h.op) (h1 : f.rd &&& g.rd = h.rd) (h2 : f.rs1 &&& g.rs1 = h.rs1)
    (h3 : f.rs2 &&& g.rs2 = h.rs2) (h4 : f.rr &&& g.rr = h.rr) (h5 : f.mode &&& g.mode = h.mode)
    (h6 : f.zero &&& g.zero = h.zero) (h7 : f.places &&& g.places = h.places) : wordOf f &&& mask = mtch := by
  subst hm ht
  rw [wordOf_and, ho, h1, h2, h3, h4, h5, h6, h7]

theorem TableMatch.add (rd rs1 rs2 : Reg) : TableMatch.Statement (.add rd rs1 rs2) :=
  tableMatch_of_fields (g := ⟨0xFF, 0, 0, 0, 7, 3, 3, 255⟩) (h := ⟨0x01, 0, 0, 0, 0, 0, 0, 0⟩)
    rfl rfl (by simp [encodeFields]) (by simp [encodeFields]) (by simp [encodeFields])
    (by simp [encodeFields]) (by simp [encodeFields]) (by simp [encodeFields]) (by simp [encodeFields]) (by simp [encodeFields])

theorem TableMatch.sub (rd rs1 rs2 : Reg) : TableMatch.Statement (.sub rd rs1 rs2) :=
  tableMatch_of_fields (g := ⟨0xFF, 0, 0, 0, 7, 3, 3, 255⟩) (h := ⟨0x02, 0, 0, 0, 0, 0, 0, 0⟩)
    rfl rfl (by simp [encodeFields]) (by simp [encodeFields]) (by simp [encodeFields])
    (by simp [encodeFields]) (by simp [encodeFields]) (by simp [encodeFields]) (by simp [encodeFields]) (by simp [encodeFields])

theorem TableMatch.mul (rd rs1 rs2 : Reg) : TableMatch.Statement (.mul rd rs1 rs2) :=
  tableMatch_of_fields (g := ⟨0xFF, 0, 0, 0, 7, 3, 3, 255⟩) (h := ⟨0x03, 0, 0, 0, 0, 0, 0, 0⟩)
    rfl rfl (by simp [encodeFields]) (by simp [encodeFields]) (by simp [encodeFields])
    (by simp [encodeFields]) (by simp [encodeFields]) (by simp [encodeFields]) (by simp [encodeFields]) (by simp [encodeFields])

theorem TableMatch.div (rd rs1 rs2 : Reg) : TableMatch.Statement (.div rd rs1 rs2) :=
  tableMatch_of_fields (g := ⟨0xFF, 0, 0, 0, 7, 3, 3, 255⟩) (h := ⟨0x04, 0, 0, 0, 0, 0, 0, 0⟩)
    rfl rfl (by simp [encodeFields]) (by simp [encodeFields]) (by simp [encodeFields])
    (by simp [encodeFields]) (by simp [encodeFields]) (by simp [encodeFields]) (by simp [encodeFields]) (by simp [encodeFields])

theorem TableMatch.divrem (rd rr rs1 rs2 : Reg) : TableMatch.Statement (.divrem rd rr rs1 rs2) :=
  tableMatch_of_fields (g := ⟨0xFF, 0, 0, 0, 0, 3, 3, 255⟩) (h := ⟨0x05, 0, 0, 0, 0, 0, 0, 0⟩)
    rfl rfl (by simp [encodeFields]) (by simp [encodeFields]) (by simp [encodeFields])
    (by simp [encodeFields]) (by simp [encodeFields]) (by simp [encodeFields]) (by simp [encodeFields]) (by simp [encodeFields])

theorem TableMatch.round (rd rs1 : Reg) (places : Int) (mode : Mode) :
    TableMatch.Statement (.round rd rs1 places mode) :=
  tableMatch_of_fields (g := ⟨0xFF, 0, 0, 7, 7, 0, 3, 0⟩) (h := ⟨0x06, 0, 0, 0, 0, 0, 0, 0⟩)
    rfl rfl (by simp [encodeFields]) (by simp [encodeFields]) (by simp [encodeFields])
    (by simp [encodeFields]) (by simp [encodeFields]) (by simp [encodeFields]) (by simp [encodeFields]) (by simp [encodeFields])

theorem TableMatch.quanta (rd rs1 rs2 : Reg) (mode : Mode) : TableMatch.Statement (.quanta rd rs1 rs2 mode) :=
  tableMatch_of_fields (g := ⟨0xFF, 0, 0, 0, 7, 0, 3, 255⟩) (h := ⟨0x07, 0, 0, 0, 0, 0, 0, 0⟩)
    rfl rfl (by simp [encodeFields]) (by simp [encodeFields]) (by simp [encodeFields])
    (by simp [encodeFields]) (by simp [encodeFields]) (by simp [encodeFields]) (by simp [encodeFields]) (by simp [encodeFields])

theorem TableMatch.cmp (rs1 rs2 : Reg) : TableMatch.Statement (.cmp rs1 rs2) :=
  tableMatch_of_fields (g := ⟨0xFF, 7, 0, 0, 7, 3, 3, 255⟩) (h := ⟨0x08, 0, 0, 0, 0, 0, 0, 0⟩)
    rfl rfl (by simp [encodeFields]) (by simp [encodeFields]) (by simp [encodeFields])
    (by simp [encodeFields]) (by simp [encodeFields]) (by simp [encodeFields]) (by simp [encodeFields]) (by simp [encodeFields])

theorem TableMatch.eq (rs1 rs2 : Reg) : TableMatch.Statement (.eq rs1 rs2) :=
  tableMatch_of_fields (g := ⟨0xFF, 7, 0, 0, 7, 3, 3, 255⟩) (h := ⟨0x09, 0, 0, 0, 0, 0, 0, 0⟩)
    rfl rfl (by simp [encodeFields]) (by simp [encodeFields]) (by simp [encodeFields])
    (by simp [encodeFields]) (by simp [encodeFields]) (by simp [encodeFields]) (by simp [encodeFields]) (by simp [encodeFields])

theorem TableMatch.neg (rd rs1 : Reg) : TableMatch.Statement (.neg rd rs1) :=
  tableMatch_of_fields (g := ⟨0xFF, 0, 0, 7, 7, 3, 3, 255⟩) (h := ⟨0x0A, 0, 0, 0, 0, 0, 0, 0⟩)
    rfl rfl (by simp [encodeFields]) (by simp [encodeFields]) (by simp [encodeFields])
    (by simp [encodeFields]) (by simp [encodeFields]) (by simp [encodeFields]) (by simp [encodeFields]) (by simp [encodeFields])

theorem TableMatch.abs (rd rs1 : Reg) : TableMatch.Statement (.abs rd rs1) :=
  tableMatch_of_fields (g := ⟨0xFF, 0, 0, 7, 7, 3, 3, 255⟩) (h := ⟨0x0B, 0, 0, 0, 0, 0, 0, 0⟩)
    rfl rfl (by simp [encodeFields]) (by simp [encodeFields]) (by simp [encodeFields])
    (by simp [encodeFields]) (by simp [encodeFields]) (by simp [encodeFields]) (by simp [encodeFields]) (by simp [encodeFields])

end Sys2Proof.Laws
end

