-- ==== Sys2Proof/Laws/Product.lean ====
section
/-! SUPPORT. The value of a limb list under one update, and what renormalising and one partial product do to the
multiplier's accumulator (42_mul.md R121). -/

namespace Sys2Proof.Machine

open Config

/-! ### Limb lists -/

@[simp] theorem limbsValue_nil : limbsValue [] = 0 := rfl

theorem limbsValue_foldl (l : List Nat) (x : Nat) :
    l.foldl (fun n d => n * radix + d) x = x * radix ^ l.length + limbsValue l := by
  induction l generalizing x with
  | nil => simp
  | cons d l ih =>
    rw [limbsValue, List.foldl_cons, List.foldl_cons, ih, ih (0 * radix + d), List.length_cons, pow_succ]
    ring

theorem limbsValue_cons (d : Nat) (l : List Nat) : limbsValue (d :: l) = d * radix ^ l.length + limbsValue l := by
  have h := limbsValue_foldl l d
  rw [← h]; simp [limbsValue]

/-- Setting one limb changes the value by the difference at that limb's weight. -/
theorem limbsValue_set (l : List Nat) {t : Nat} (h : t < l.length) (x : Nat) :
    limbsValue (l.set t x) + l.getD t 0 * radix ^ (l.length - 1 - t)
      = limbsValue l + x * radix ^ (l.length - 1 - t) := by
  induction l generalizing t with
  | nil => simp at h
  | cons d l ih =>
    cases t with
    | zero =>
      simp only [List.set_cons_zero, limbsValue_cons, List.getD_cons_zero, List.length_cons]
      simp only [Nat.add_sub_cancel, Nat.sub_zero]; omega
    | succ t =>
      have ht : t < l.length := by simpa using h
      have := ih ht
      simp only [List.set_cons_succ, limbsValue_cons, List.getD_cons_succ, List.length_cons, List.length_set]
      rw [show l.length + 1 - 1 - (t + 1) = l.length - 1 - t by omega]
      omega

theorem getD_set_self (l : List Nat) {t : Nat} (h : t < l.length) (x : Nat) : (l.set t x).getD t 0 = x := by
  simp [List.getD, h]

theorem getD_set_ne (l : List Nat) {t k : Nat} (h : t ≠ k) (x : Nat) : (l.set t x).getD k 0 = l.getD k 0 := by
  simp [List.getD, h]

/-- A leading limb times its weight is at most the value. -/
theorem limbsValue_ge_head (l : List Nat) (h : 0 < l.length) :
    l.getD 0 0 * radix ^ (l.length - 1) ≤ limbsValue l := by
  cases l with
  | nil => simp at h
  | cons d l => rw [limbsValue_cons]; simp

/-- The value is below `radix` to the number of limbs when every limb is below `radix`. -/
theorem limbsValue_lt (l : List Nat) (h : ∀ d ∈ l, d < radix) : limbsValue l < radix ^ l.length := by
  induction l with
  | nil => simp
  | cons d l ih =>
    have h1 := ih fun x hx => h x (by simp [hx])
    have h2 : (d + 1) * radix ^ l.length ≤ radix * radix ^ l.length := Nat.mul_le_mul_right _ (h d (by simp))
    rw [limbsValue_cons, List.length_cons, pow_succ, Nat.mul_comm (radix ^ l.length)]
    rw [Nat.add_mul] at h2
    omega

/-! ### The accumulator -/

@[simp] theorem length_accAdd (acc : List Nat) (k n : Nat) : (accAdd acc k n).length = acc.length := by
  simp [accAdd]

theorem limbsValue_accAdd (acc : List Nat) {k : Nat} (h : k < acc.length) (n : Nat) :
    limbsValue (accAdd acc k n) = limbsValue acc + n * radix ^ (acc.length - 1 - k) := by
  have := limbsValue_set acc h (acc.getD k 0 + n)
  rw [Nat.add_mul] at this
  simp only [accAdd]; omega

theorem getD_accAdd_ne (acc : List Nat) {k j : Nat} (h : k ≠ j) (n : Nat) :
    (accAdd acc k n).getD j 0 = acc.getD j 0 := getD_set_ne acc h _

/-- Carrying `q` out of slot `t + 1` into slot `t` keeps the value. -/
theorem limbsValue_carry (acc : List Nat) {t : Nat} (h : t + 1 < acc.length) :
    limbsValue ((accAdd acc t (acc.getD (t + 1) 0 / radix)).set (t + 1) (acc.getD (t + 1) 0 % radix))
      = limbsValue acc := by
  have h1 := limbsValue_accAdd acc (show t < acc.length by omega) (acc.getD (t + 1) 0 / radix)
  have h2 := limbsValue_set (accAdd acc t (acc.getD (t + 1) 0 / radix)) (t := t + 1) (by simpa using h)
    (acc.getD (t + 1) 0 % radix)
  rw [getD_accAdd_ne acc (by omega), length_accAdd, h1] at h2
  have hp : radix ^ (acc.length - 1 - t) = radix * radix ^ (acc.length - 1 - (t + 1)) := by
    rw [← pow_succ']; congr 1; omega
  generalize hP : radix ^ (acc.length - 1 - (t + 1)) = P at *
  have hd := Nat.div_add_mod (acc.getD (t + 1) 0) radix
  generalize acc.getD (t + 1) 0 / radix = q at *
  generalize acc.getD (t + 1) 0 % radix = r at *
  rw [hp, ← hd, Nat.add_mul] at h2
  have : q * (radix * P) = radix * q * P := by ring
  omega

/-- Renormalising (R121) keeps the value and brings every slot but slot 0 below the radix. -/
theorem renormalise_spec (acc : List Nat) (t : Nat) (ht : t < acc.length)
    (hi : ∀ k, t < k → k < acc.length → acc.getD k 0 < radix) :
    (renormalise acc t).length = acc.length ∧ limbsValue (renormalise acc t) = limbsValue acc ∧
      ∀ k, 0 < k → k < acc.length → (renormalise acc t).getD k 0 < radix := by
  induction t generalizing acc with
  | zero => exact ⟨rfl, rfl, hi⟩
  | succ t ih =>
    rw [renormalise]
    split
    · rename_i hge
      have hlen : ((accAdd acc t (acc.getD (t + 1) 0 / radix)).set (t + 1) (acc.getD (t + 1) 0 % radix)).length
          = acc.length := by simp
      have := ih _ (by rw [hlen]; omega) (fun k hk hkl => by
        rw [hlen] at hkl
        by_cases he : k = t + 1
        · subst he
          rw [getD_set_self _ (by simpa using ht)]
          exact Nat.mod_lt _ (by decide)
        · rw [getD_set_ne _ (fun e => he e.symm), getD_accAdd_ne _ (by omega)]
          exact hi k (by omega) hkl)
      rw [hlen, limbsValue_carry acc ht] at this
      exact this
    · rename_i hlt
      exact ih acc (by omega) (fun k hk hkl => by
        by_cases he : k = t + 1
        · subst he; omega
        · exact hi k (by omega) hkl)

/-- One partial product (R121): slot weights `radix^(10-i-j)` for the whole product `a[i]*b[j]`. The twelve slots stay
below the radix, so the accumulator is the base-10^9 representation of what has been added. -/
theorem accStep_spec (a b : Mags) (acc : List Nat) {i j : Nat} (hi : i < 6) (hj : j < 6) (hlen : acc.length = 12)
    (hlt : ∀ k, k < 12 → acc.getD k 0 < radix)
    (hfit : limbsValue acc + a.get i * b.get j * radix ^ (10 - i - j) < radix ^ 12) :
    (accStep a b acc (i, j)).length = 12 ∧
      (∀ k, k < 12 → (accStep a b acc (i, j)).getD k 0 < radix) ∧
      limbsValue (accStep a b acc (i, j)) = limbsValue acc + a.get i * b.get j * radix ^ (10 - i - j) := by
  have h1 := limbsValue_accAdd acc (k := i + j + 1) (by omega) (a.get i * b.get j % radix)
  have h2 := limbsValue_accAdd (accAdd acc (i + j + 1) (a.get i * b.get j % radix)) (k := i + j + 1 - 1)
    (by simp; omega) (a.get i * b.get j / radix)
  obtain ⟨hl, hv, hr⟩ := renormalise_spec (accAdd (accAdd acc (i + j + 1) (a.get i * b.get j % radix))
    (i + j + 1 - 1) (a.get i * b.get j / radix)) (i + j + 1) (by simp; omega) (fun k hk hkl => by
      rw [getD_accAdd_ne _ (by omega), getD_accAdd_ne _ (by omega)]
      exact hlt k (by simp at hkl; omega))
  simp only [length_accAdd, hlen] at h1 h2 hl hr
  have hval : limbsValue (accStep a b acc (i, j)) = limbsValue acc + a.get i * b.get j * radix ^ (10 - i - j) := by
    show limbsValue (renormalise _ _) = _
    rw [hv, h2, h1]
    have hw1 : 12 - 1 - (i + j + 1) = 10 - i - j := by omega
    have hw2 : 12 - 1 - (i + j + 1 - 1) = 10 - i - j + 1 := by omega
    rw [hw1, hw2, pow_succ]
    have hd := Nat.div_add_mod (a.get i * b.get j) radix
    generalize radix ^ (10 - i - j) = P
    generalize a.get i * b.get j / radix = q at *
    generalize a.get i * b.get j % radix = r at *
    rw [← hd]; ring
  refine ⟨hl, fun k hk => ?_, hval⟩
  by_cases hk0 : k = 0
  · subst hk0
    have hge := limbsValue_ge_head (accStep a b acc (i, j)) (lt_of_lt_of_eq (by decide : 0 < 12) hl.symm)
    rw [show (accStep a b acc (i, j)).length = 12 from hl, hval] at hge
    have : (accStep a b acc (i, j)).getD 0 0 * radix ^ 11 < radix * radix ^ 11 :=
      lt_of_le_of_lt hge (by rw [← pow_succ']; exact hfit)
    exact Nat.lt_of_mul_lt_mul_right this
  · exact hr k (by omega) hk

end Sys2Proof.Machine
end

