-- ==== Sys2Proof/Tests/Slice0.lean ====
section
/-! SUPPORT. Tests of the model, each with its source in the spec: well-formedness, the command words written out from
30_encoding.md, one or two steps per command with limb words of 95_test_vectors.md, the bus and reset, the host's texts,
and for every obligation that has hypotheses a theorem `test_witness_…` whose state and operands meet them all. -/

namespace Sys2Proof.Tests

open Sys2Proof Sys2Proof.Machine

/-! ### Values, as the limb words of 95_test_vectors.md -/

def one : Value := ⟨0, 1, 0, 0, 0, 0⟩
def two : Value := ⟨0, 2, 0, 0, 0, 0⟩
def three : Value := ⟨0, 3, 0, 0, 0, 0⟩
def five : Value := ⟨0, 5, 0, 0, 0, 0⟩
def minusFive : Value := ⟨0x80000000, 5, 0, 0, 0, 0⟩
def seven : Value := ⟨0, 7, 0, 0, 0, 0⟩
/-- `10^-36`. -/
def eps : Value := ⟨0, 0, 0, 0, 0, 1⟩
/-- `999999999999999999`. -/
def maxInt : Value := ⟨0x3B9AC9FF, 0x3B9AC9FF, 0, 0, 0, 0⟩
/-- `<max` and `-<max`. -/
def ovfMax : Value := ⟨0x3B9AC9FF, 0x3B9AC9FF, 0xBB9AC9FF, 0x3B9AC9FF, 0x3B9AC9FF, 0x3B9AC9FF⟩
def minusOvfMax : Value := ⟨0xBB9AC9FF, 0x3B9AC9FF, 0xBB9AC9FF, 0x3B9AC9FF, 0x3B9AC9FF, 0x3B9AC9FF⟩
def notANumber : Value := ⟨0, 0x80000000, 0, 0, 0, 0⟩
/-- A NaN written by the host with other bits set (95_test_vectors.md section 3.9). -/
def dirtyNan : Value := ⟨0x80000000, 0x80000005, 7, 0, 0, 0⟩
/-- `~0` and `~-0`. -/
def unfZero : Value := ⟨0, 0, 0, 0x80000000, 0, 0⟩
def unfMinusZero : Value := ⟨0x80000000, 0, 0, 0x80000000, 0, 0⟩
/-- `0.1`, `~0.1`, `-0.1` and `0.5`. -/
def tenth : Value := ⟨0, 0, 0x05F5E100, 0, 0, 0⟩
def unfTenth : Value := ⟨0, 0, 0x05F5E100, 0x80000000, 0, 0⟩
def minusTenth : Value := ⟨0x80000000, 0, 0x05F5E100, 0, 0, 0⟩
def half : Value := ⟨0, 0, 0x1DCD6500, 0, 0, 0⟩
/-- `2.5` and `-2.5`. -/
def twoHalf : Value := ⟨0, 2, 0x1DCD6500, 0, 0, 0⟩
def minusTwoHalf : Value := ⟨0x80000000, 2, 0x1DCD6500, 0, 0, 0⟩
/-- A negative exact zero: ill-formed (10_state.md R25 (d)). -/
def minusZero : Value := ⟨0x80000000, 0, 0, 0, 0, 0⟩

/-- The reset state with `D0 = x` and `D1 = y`. -/
def at2 (x y : Value) : State := (State.reset.setReg 0 x).setReg 1 y

/-- The reset state with the host about to do `e` and then a read of RES. -/
def hostAt (s : State) (e : HostEvent) : State := { s with host := [e, .busRead 0x104] }

/-- The outcome is the next state `t`, field for field. -/
def nextIs (o : Host.Outcome State Fault Refusal) (t : State) : Bool :=
  match o with
  | .next s => decide (s = t)
  | .fault _ => false
  | .refused _ => false

/-- The outcome is a next state that meets `p`. -/
def nextMeets (o : Host.Outcome State Fault Refusal) (p : State → Bool) : Bool :=
  match o with
  | .next s => p s
  | .fault _ => false
  | .refused _ => false

/-- With `D0 = x` and `D1 = y` well-formed, the command writes `v` to `D2` and changes nothing else. -/
def gives (i : Instr) (x y v : Value) : Bool :=
  x.wf && y.wf && nextIs (exec i (at2 x y)) ((at2 x y).setReg 2 v)

/-- With `D0 = x` and `D1 = y` well-formed, the command writes `w` to RES and changes nothing else. -/
def givesRes (i : Instr) (x y : Value) (w : Word) : Bool :=
  x.wf && y.wf && nextIs (exec i (at2 x y)) { at2 x y with res := w }

/-! ### WellFormed: what each check refuses -/

theorem test_wf_divrem_equal_destinations : (Instr.divrem 2 2 0 1).wf = false := by decide
theorem test_wf_round_places_above : (Instr.round 1 0 128 .halfUp).wf = false := by decide
theorem test_wf_round_places_below : (Instr.round 1 0 (-129) .halfUp).wf = false := by decide
theorem test_wf_round_places_ends : (Instr.round 1 0 127 .halfUp).wf = true ∧ (Instr.round 1 0 (-128) .halfUp).wf = true := by
  decide

/-- `WF` of 10_state.md R25, one ill-formed value per clause. -/
theorem test_value_wf :
    (Value.mk 0x3B9ACA00 0 0 0 0 0).wf = false ∧ (Value.mk 0 0 0 0 0x80000000 1).wf = false ∧
    (Value.mk 0 0 0x80000000 0 0 1).wf = false ∧ minusZero.wf = false ∧ dirtyNan.wf = true ∧
    unfMinusZero.wf = true ∧ ovfMax.wf = true := by decide

/-! ### Command words, the fields of R71 written out bit by bit (op, rd, rs1, rs2, rr, mode, zero, places) -/

theorem test_decode_add : decode 0b00000001_010_000_001_000_00_00_00000000 = .ok (.add 2 0 1) := by decide
theorem test_decode_sub : decode 0b00000010_101_011_100_000_00_00_00000000 = .ok (.sub 5 3 4) := by decide
theorem test_decode_mul : decode 0b00000011_011_010_010_000_00_00_00000000 = .ok (.mul 3 2 2) := by decide
theorem test_decode_div : decode 0b00000100_010_000_001_000_00_00_00000000 = .ok (.div 2 0 1) := by decide
theorem test_decode_divrem : decode 0b00000101_010_000_001_011_00_00_00000000 = .ok (.divrem 2 3 0 1) := by decide
theorem test_decode_round : decode 0b00000110_111_111_000_000_01_00_10000000 = .ok (.round 7 7 (-128) .away) := by decide
theorem test_decode_quanta : decode 0b00000111_111_110_101_000_11_00_00000000 = .ok (.quanta 7 6 5 .halfUp) := by decide
theorem test_decode_cmp : decode 0b00001000_000_000_001_000_00_00_00000000 = .ok (.cmp 0 1) := by decide
theorem test_decode_eq : decode 0b00001001_000_111_111_000_00_00_00000000 = .ok (.eq 7 7) := by decide
theorem test_decode_neg : decode 0b00001010_001_000_000_000_00_00_00000000 = .ok (.neg 1 0) := by decide
theorem test_decode_abs : decode 0b00001011_111_111_000_000_00_00_00000000 = .ok (.abs 7 7) := by decide

/-- 95_test_vectors.md section 2.1: `ROUND D1, D0, #35, HALFDOWN` and `ROUND D0, D0, #127, HALFUP`. -/
theorem test_decode_round_places :
    decode 0x06200823 = .ok (.round 1 0 35 .halfDown) ∧ decode 0x06000C7F = .ok (.round 0 0 127 .halfUp) := by decide

/-- 95_test_vectors.md section 2.2, the illegal words, by their clause of R75. -/
theorem test_decode_illegal :
    decode 0x00000000 = .error .reservedOpcode ∧ decode 0xFF000000 = .error .reservedOpcode ∧
    decode 0x05000000 = .error .equalDestinations ∧ decode 0x01408400 = .error .unusedFieldNonzero ∧
    decode 0x01409000 = .error .unusedFieldNonzero ∧ decode 0x06200100 = .error .unusedFieldNonzero ∧
    decode 0x06208000 = .error .unusedFieldNonzero ∧ decode 0x0A208000 = .error .unusedFieldNonzero ∧
    decode 0x07408401 = .error .unusedFieldNonzero := by decide

/-- The host's table word, and the very next step runs it: `ADD D2, D0, D1` on `1` and `2`. -/
theorem test_fetch_word :
    decodeTableWord 32 0x01408000 = some (.add 2 0 1) ∧
    nextIs (step ((at2 one two).withFetchWord 32 0x01408000)) ((at2 one two).setReg 2 three) = true := by decide +kernel

/-! ### The arithmetic commands, and the witnesses of their statements: one case per clause -/

/-- R110, with rows of 95_test_vectors.md section 3.1: NaN, overflowed operands (both sign rules), equal signs with and
without a carry out, equal magnitudes, and each operand the larger. -/
theorem test_witness_AddResult :
    gives (.add 2 0 1) notANumber one notANumber = true ∧ gives (.add 2 0 1) one notANumber notANumber = true ∧
    gives (.add 2 0 1) ovfMax one ovfMax = true ∧ gives (.add 2 0 1) minusFive ovfMax minusOvfMax = true ∧
    gives (.add 2 0 1) ovfMax minusFive ovfMax = true ∧ gives (.add 2 0 1) one two three = true ∧
    gives (.add 2 0 1) maxInt one ovfMax = true ∧ gives (.add 2 0 1) unfTenth minusTenth zeroValue = true ∧
    gives (.add 2 0 1) five ⟨0x80000000, 3, 0, 0, 0, 0⟩ two = true ∧
    gives (.add 2 0 1) three minusFive ⟨0x80000000, 2, 0, 0, 0, 0⟩ = true := by decide +kernel

/-- `ADD` of the host's dirty NaN gives the canonical NaN (95_test_vectors.md section 3.9), also into its own source. -/
theorem test_add_into_source :
    nextIs (exec (.add 0 0 1) (at2 dirtyNan one)) (at2 notANumber one) = true := by decide +kernel

/-- R111, rows of section 3.2: a borrow through all limbs, both signs, a subtracted exact zero, overflow. -/
theorem test_witness_SubResult :
    gives (.sub 2 0 1) three five ⟨0x80000000, 2, 0, 0, 0, 0⟩ = true ∧
    gives (.sub 2 0 1) one eps ⟨0, 0, 0x3B9AC9FF, 0x3B9AC9FF, 0x3B9AC9FF, 0x3B9AC9FF⟩ = true ∧
    gives (.sub 2 0 1) zeroValue five minusFive = true ∧ gives (.sub 2 0 1) zeroValue zeroValue zeroValue = true ∧
    gives (.sub 2 0 1) five unfZero ⟨0, 5, 0, 0x80000000, 0, 0⟩ = true ∧
    gives (.sub 2 0 1) five ovfMax minusOvfMax = true ∧ gives (.sub 2 0 1) minusFive minusOvfMax minusOvfMax = true ∧
    gives (.sub 2 0 1) ⟨0xBB9AC9FF, 0x3B9AC9FF, 0, 0, 0, 0⟩ one minusOvfMax = true ∧
    gives (.sub 2 0 1) one notANumber notANumber = true := by decide +kernel

/-- The premises of R112's clauses: commutativity, the neutral zero, results that are neither NaN nor overflowed, and
an underflowed result. -/
theorem test_witness_AddSubLaws :
    unfTenth.wf = true ∧ two.wf = true ∧ unfTenth.ovf = false ∧ two.ovf = false ∧ unfTenth.nan = false ∧
    unfTenth ≠ mkValue true true 0 ∧ (unfTenth.add two).nan = false ∧ (unfTenth.add two).ovf = false ∧
    (unfTenth.sub two).nan = false ∧ (unfTenth.sub two).ovf = false ∧ (unfTenth.add two).unf = true ∧
    (unfTenth.sub two).unf = true := by decide +kernel

/-- R120, rows of section 3.3: a carry into the integer limbs, the zero test of `y` alone before an overflowed operand,
overflow, underflow with its sign, and no negative exact zero. -/
theorem test_witness_MulResult :
    gives (.mul 2 0 1) ⟨0, 999999999, 0, 0, 0, 0⟩ ⟨0, 999999999, 0, 0, 0, 0⟩ ⟨0x3B9AC9FE, 1, 0, 0, 0, 0⟩ = true ∧
    gives (.mul 2 0 1) notANumber zeroValue notANumber = true ∧ gives (.mul 2 0 1) ovfMax zeroValue zeroValue = true ∧
    gives (.mul 2 0 1) zeroValue ovfMax ovfMax = true ∧
    gives (.mul 2 0 1) ⟨1, 0, 0, 0, 0, 0⟩ ⟨1, 0, 0, 0, 0, 0⟩ ovfMax = true ∧
    gives (.mul 2 0 1) ⟨0x80000000, 0, 0, 0, 0, 1⟩ tenth unfMinusZero = true ∧
    gives (.mul 2 0 1) zeroValue minusFive zeroValue = true := by decide +kernel

/-- `MUL(123456789.123456789, 987654321.987654321)` (section 3.3). -/
theorem test_mul_product :
    gives (.mul 2 0 1) ⟨0, 123456789, 123456789, 0, 0, 0⟩ ⟨0, 987654321, 987654321, 0, 0, 0⟩
      ⟨0x07448B57, 0x153FC433, 0x14B1E661, 0x06B6AD85, 0, 0⟩ = true := by decide +kernel

/-- Section 3.0: the full product of the two canonical maxima. -/
theorem test_witness_ProductIsFullProduct :
    maxMags.inRange = true ∧
    product maxMags maxMags
      = [999999999, 999999999, 999999999, 999999999, 999999999, 999999998, 0, 0, 0, 0, 0, 1] := by decide +kernel

/-- The premises of R124's clauses, at `1.5` and at `~0`. -/
theorem test_witness_MulLaws :
    (Value.mk 0 1 0x1DCD6500 0 0 0).wf = true ∧ (Value.mk 0 1 0x1DCD6500 0 0 0).nan = false ∧
    (Value.mk 0 1 0x1DCD6500 0 0 0).unf = false ∧ (Value.mk 0 1 0x1DCD6500 0 0 0).ovf = false ∧
    (Value.mk 0 1 0x1DCD6500 0 0 0).toNat * (Value.mk 0 1 0x1DCD6500 0 0 0).toNat / 10 ^ 36 < 10 ^ 54 ∧
    unfZero.wf = true ∧ unfZero.nan = false ∧ unfZero.unf = true := by decide +kernel

/-- Section 4: `MUL(2, ~3)` under `MUL_UNF_IN` is `~6`. -/
theorem test_witness_MulUnderflowSwitch :
    two.wf = true ∧ (Value.mk 0 3 0 0x80000000 0 0).wf = true ∧ two.nan = false ∧
    (Value.mk 0 3 0 0x80000000 0 0).nan = false ∧
    two.mul { mulUnfIn := true } ⟨0, 3, 0, 0x80000000, 0, 0⟩ = ⟨0, 6, 0, 0x80000000, 0, 0⟩ ∧
    two.mul {} ⟨0, 3, 0, 0x80000000, 0, 0⟩ = ⟨0, 6, 0, 0, 0, 0⟩ := by decide +kernel

/-- R130, rows of section 3.4: NaN and zero divisors, overflowed operands before a zero dividend, overflow at its
boundary, inexact and exact quotients, and the sign of an underflowed zero. -/
theorem test_witness_DivResult :
    gives (.div 2 0 1) notANumber one notANumber = true ∧ gives (.div 2 0 1) five unfZero notANumber = true ∧
    gives (.div 2 0 1) zeroValue ovfMax ovfMax = true ∧
    gives (.div 2 0 1) one ⟨0, 0, 0, 1, 0, 0⟩ ovfMax = true ∧
    gives (.div 2 0 1) ⟨0, 0, 0x3B9AC9FF, 0x3B9AC9FF, 0, 0⟩ ⟨0, 0, 0, 1, 0, 0⟩ maxInt = true ∧
    gives (.div 2 0 1) one three ⟨0, 0, 0x13DE4355, 0x93DE4355, 0x13DE4355, 0x13DE4355⟩ = true ∧
    gives (.div 2 0 1) ⟨0, 6, 0, 0, 0, 0⟩ three two = true ∧ gives (.div 2 0 1) zeroValue minusFive zeroValue = true ∧
    gives (.div 2 0 1) unfZero minusFive unfMinusZero = true := by decide +kernel

/-- The division engine on section 3.4's rows with equal leading limbs (a zero digit left of limb 0), an overflow and an
underflow to zero. -/
theorem test_witness_EngineComputesQuotient :
    engine ⟨5, 0, 0, 0, 0, 0⟩ ⟨0, 0, 5, 1, 0, 0⟩
      = some (⟨0x3B9AC9FF, 0x2FAF0800, 0x026259FF, 0x3B20B800, 0x001869FF, 0x3B95E800⟩, true) ∧
    engine ⟨1, 0, 0, 0, 0, 0⟩ ⟨0, 0, 1, 0, 0, 0⟩ = none ∧
    engine ⟨0, 0, 0, 0, 0, 1⟩ ⟨999999999, 999999999, 0, 0, 0, 0⟩ = some (zeroMags, true) ∧
    (Mags.mk 5 0 0 0 0 0).inRange = true ∧ (Mags.mk 5 0 0 0 0 0).toNat ≠ 0 ∧
    (Mags.mk 0 0 5 1 0 0).inRange = true ∧ (Mags.mk 0 0 5 1 0 0).toNat ≠ 0 := by decide +kernel

/-- R150 and the table of section 3.5: `2.5` in all four modes, a negative tie, NaN, overflow and zero before a
negative `places`, `places` at -1, 0, 35 and 36, a carry out of limb 0, and a result of exact zero. -/
theorem test_witness_RoundResult :
    gives (.round 2 0 0 .towards) twoHalf zeroValue two = true ∧ gives (.round 2 0 0 .away) twoHalf zeroValue three = true ∧
    gives (.round 2 0 0 .halfDown) twoHalf zeroValue two = true ∧
    gives (.round 2 0 0 .halfUp) minusTwoHalf zeroValue ⟨0x80000000, 3, 0, 0, 0, 0⟩ = true ∧
    gives (.round 2 0 2 .halfUp) notANumber zeroValue notANumber = true ∧
    gives (.round 2 0 (-1) .halfUp) minusOvfMax zeroValue minusOvfMax = true ∧
    gives (.round 2 0 (-1) .halfUp) unfMinusZero zeroValue zeroValue = true ∧
    gives (.round 2 0 (-1) .towards) twoHalf zeroValue notANumber = true ∧
    gives (.round 2 0 35 .away) eps zeroValue ⟨0, 0, 0, 0, 0, 10⟩ = true ∧
    gives (.round 2 0 36 .away) eps zeroValue eps = true ∧
    gives (.round 2 0 0 .halfUp) ⟨0x3B9AC9FF, 0x3B9AC9FF, 0x1DCD6500, 0, 0, 0⟩ zeroValue ovfMax = true ∧
    gives (.round 2 0 0 .halfUp) ⟨0x80000000, 0, 0x17D78400, 0x80000000, 0, 0⟩ zeroValue zeroValue = true := by
  decide +kernel

/-- HalfDown looks at the limb of the cut only (R154): `2.5000000001` rounds to `2`, and to `3` under
`HALFDOWN_STICKY` (section 4); `HALFUP_PLUS_ONE` rounds `2.499999999` to `3`. -/
theorem test_round_switches :
    (Value.mk 0 2 0x1DCD6500 100000000 0 0).round {} 0 .halfDown = two ∧
    (Value.mk 0 2 0x1DCD6500 100000000 0 0).round { halfDownSticky := true } 0 .halfDown = three ∧
    (Value.mk 0 2 499999999 0 0 0).round {} 0 .halfUp = two ∧
    (Value.mk 0 2 499999999 0 0 0).round { halfUpPlusOne := true } 0 .halfUp = three ∧
    (Value.mk 0 2 0x1DCD6500 0x80000000 0 0).round { roundUnfIn := true } 0 .halfUp = ⟨0, 3, 0, 0x80000000, 0, 0⟩ := by
  decide +kernel

/-- DIVREM of `x` by `y` gives the two values and changes nothing else. -/
def givesPair (x y q r : Value) : Bool :=
  x.wf && y.wf && nextIs (exec (.divrem 2 3 0 1) (at2 x y)) (((at2 x y).setReg 2 q).setReg 3 r)

/-- R160, rows of section 3.6: the NaN pair for a NaN, a zero divisor, an overflowed operand and a quotient of `10^18`;
a remainder with `x`'s sign and underflow, an underflowed zero remainder, and an exact zero. -/
theorem test_witness_DivremResult :
    (2 : Reg) ≠ 3 ∧ givesPair notANumber one notANumber notANumber = true ∧
    givesPair five zeroValue notANumber notANumber = true ∧ givesPair one ovfMax notANumber notANumber = true ∧
    givesPair one ⟨0, 0, 0, 1, 0, 0⟩ notANumber notANumber = true ∧
    givesPair ⟨0x80000000, 7, 0, 0, 0, 0⟩ two ⟨0x80000000, 3, 0, 0, 0, 0⟩ ⟨0x80000000, 1, 0, 0, 0, 0⟩ = true ∧
    givesPair ⟨0, 7, 0, 0x80000000, 0, 0⟩ two three ⟨0, 1, 0, 0x80000000, 0, 0⟩ = true ∧
    givesPair unfZero five zeroValue unfZero = true ∧ givesPair unfMinusZero five zeroValue zeroValue = true ∧
    givesPair minusFive five ⟨0x80000000, 1, 0, 0, 0, 0⟩ zeroValue = true := by decide +kernel

/-- Destinations equal to sources, `DIVREM D0, D1, D0, D1` of
`7.5` by `2` leaves `3` and `1.5` (R77). -/
theorem test_divrem_into_sources :
    nextIs (exec (.divrem 0 1 0 1) (at2 ⟨0, 7, 0x1DCD6500, 0, 0, 0⟩ two)) (at2 three ⟨0, 1, 0x1DCD6500, 0, 0, 0⟩) = true := by
  decide +kernel

theorem test_witness_DivremIdentity :
    seven.wf = true ∧ two.wf = true ∧ (seven.divrem Config.switches two).1.nan = false ∧ seven.unf = false ∧
    two.unf = false ∧ seven.toNat ≠ 0 ∧ (seven.divrem Config.switches two).2.toNat ≠ 0 := by decide +kernel

/-- R161, rows of section 3.7: NaN, overflow, a quotient of `10^18`, and `10` in steps of `3` in all four modes. -/
theorem test_witness_QuantaResult :
    gives (.quanta 2 0 1 .towards) one zeroValue notANumber = true ∧
    gives (.quanta 2 0 1 .away) ovfMax two ovfMax = true ∧
    gives (.quanta 2 0 1 .halfUp) one ⟨0, 0, 0, 1, 0, 0⟩ ovfMax = true ∧
    gives (.quanta 2 0 1 .away) maxInt two ovfMax = true ∧
    gives (.quanta 2 0 1 .towards) ⟨0, 10, 0, 0, 0, 0⟩ three ⟨0, 9, 0, 0, 0, 0⟩ = true ∧
    gives (.quanta 2 0 1 .away) ⟨0, 10, 0, 0, 0, 0⟩ three ⟨0, 12, 0, 0, 0, 0⟩ = true ∧
    gives (.quanta 2 0 1 .halfDown) ⟨0, 10, 0, 0, 0, 0⟩ three ⟨0, 9, 0, 0, 0, 0⟩ = true ∧
    gives (.quanta 2 0 1 .halfUp) ⟨0, 10, 0, 0, 0, 0⟩ three ⟨0, 9, 0, 0, 0, 0⟩ = true := by decide +kernel

/-- `QUANTA(-7.25, -0.5)`: HalfDown `-7`, HalfUp `-7.5` (section 3.7): the sign of `x`. -/
theorem test_quanta_tie :
    gives (.quanta 2 0 1 .halfDown) ⟨0x80000000, 7, 250000000, 0, 0, 0⟩ ⟨0x80000000, 0, 0x1DCD6500, 0, 0, 0⟩
      ⟨0x80000000, 7, 0, 0, 0, 0⟩ = true ∧
    gives (.quanta 2 0 1 .halfUp) ⟨0x80000000, 7, 250000000, 0, 0, 0⟩ ⟨0x80000000, 0, 0x1DCD6500, 0, 0, 0⟩
      ⟨0x80000000, 7, 0x1DCD6500, 0, 0, 0⟩ = true := by decide +kernel

/-- R170, rows of section 3.8, one per clause. -/
theorem test_witness_CmpResult :
    givesRes (.cmp 0 1) notANumber notANumber 0xFFFFFFFF = true ∧ givesRes (.cmp 0 1) one notANumber 1 = true ∧
    givesRes (.cmp 0 1) minusFive five 0xFFFFFFFF = true ∧ givesRes (.cmp 0 1) five minusFive 1 = true ∧
    givesRes (.cmp 0 1) one ovfMax 0xFFFFFFFF = true ∧
    givesRes (.cmp 0 1) minusOvfMax ⟨0x80000000, 1, 0, 0, 0, 0⟩ 0xFFFFFFFF = true ∧
    givesRes (.cmp 0 1) two one 1 = true ∧ givesRes (.cmp 0 1) one two 0xFFFFFFFF = true ∧
    givesRes (.cmp 0 1) unfZero zeroValue 1 = true ∧ givesRes (.cmp 0 1) zeroValue unfZero 0xFFFFFFFF = true ∧
    givesRes (.cmp 0 1) one one 0 = true := by decide +kernel

/-- R171, rows of section 3.8: equal, unequal, and each flag that makes a value unequal to itself. -/
theorem test_witness_EqResult :
    givesRes (.eq 0 1) five five 1 = true ∧ givesRes (.eq 0 1) five minusFive 0 = true ∧
    givesRes (.eq 0 1) notANumber notANumber 0 = true ∧ givesRes (.eq 0 1) ovfMax ovfMax 0 = true ∧
    givesRes (.eq 0 1) unfZero unfZero 0 = true := by decide +kernel

theorem test_witness_CmpIsTotalPreorder :
    unfMinusZero.wf = true ∧ zeroValue.wf = true ∧ unfZero.wf = true ∧ unfMinusZero.nan = false ∧ zeroValue.nan = false ∧
    unfZero.nan = false ∧ unfMinusZero.cmp zeroValue ≤ 0 ∧ zeroValue.cmp unfZero ≤ 0 ∧ zeroValue.eq zeroValue = true := by
  decide +kernel

/-- R180, rows of section 3.9: a sign flip, the exact zero, the underflowed zero, an overflowed value, the dirty NaN. -/
theorem test_witness_NegResult :
    gives (.neg 2 0) five zeroValue minusFive = true ∧ gives (.neg 2 0) zeroValue zeroValue zeroValue = true ∧
    gives (.neg 2 0) unfZero zeroValue unfMinusZero = true ∧ gives (.neg 2 0) ovfMax zeroValue minusOvfMax = true ∧
    gives (.neg 2 0) dirtyNan zeroValue notANumber = true := by decide +kernel

/-- R181, rows of section 3.9. -/
theorem test_witness_AbsResult :
    gives (.abs 2 0) minusFive zeroValue five = true ∧ gives (.abs 2 0) unfMinusZero zeroValue unfZero = true ∧
    gives (.abs 2 0) minusOvfMax zeroValue ovfMax = true ∧ gives (.abs 2 0) dirtyNan zeroValue notANumber = true := by
  decide +kernel

theorem test_witness_NegAbsLaws :
    ((at2 minusFive one).reg 0).wf = true ∧ ((at2 minusFive one).reg 0).nan = false := by decide +kernel

/-! ### Encoding, completion, frames: witnesses -/

theorem test_witness_EncodeThenDecode :
    (Instr.divrem 2 3 0 1).wf = true ∧ (Instr.round 7 7 (-128) .away).wf = true ∧ (Instr.round 0 0 127 .halfUp).wf = true := by
  decide

theorem test_witness_DecodeThenEncode : decode 0x06FC0480 = .ok (.round 7 7 (-128) .away) := by decide

theorem test_witness_CommandsAreClosed :
    (Instr.divrem 0 1 0 1).wf = true ∧ SourcesWf (.divrem 0 1 0 1) (at2 unfTenth minusOvfMax) ∧
    nextMeets (exec (.add 0 0 1) (at2 unfTenth minusOvfMax)) (fun t => (t.reg 0).ovf && !(t.reg 0).nan) = true ∧
    nextMeets (exec (.divrem 0 1 0 1) (at2 unfTenth minusOvfMax)) (fun t => (t.reg 0).nan && (t.reg 1).nan) = true := by
  decide +kernel

/-- Every command has well-formed sources in the reset state, and answers a next state there. -/
theorem test_witness_WellFormedSourcesComplete :
    [Instr.add 2 0 1, .sub 2 0 1, .mul 2 0 1, .div 2 0 1, .divrem 2 3 0 1, .round 2 0 0 .halfUp, .quanta 2 0 1 .away,
      .cmp 0 1, .eq 0 1, .neg 2 0, .abs 2 0].all
      (fun i => i.wf && decide (SourcesWf i State.reset) && nextMeets (exec i State.reset) (fun _ => true)) = true := by
  decide +kernel

/-- 95_test_vectors.md section 2.3: after `WR 0x000, 0xFFFFFFFF` a command that reads `D0` is outside the model (U1). -/
theorem test_witness_IllFormedSourceIsRefused :
    (Instr.abs 2 0).wf = true ∧ (0 : Reg) ∈ sourcesOf (.abs 2 0) ∧
    ((at2 ⟨0xFFFFFFFF, 0, 0, 0, 0, 0⟩ one).reg 0).wf = false ∧
    (match exec (.abs 2 0) (at2 ⟨0xFFFFFFFF, 0, 0, 0, 0, 0⟩ one) with
      | .refused r => decide (r = .illFormedSource 0)
      | .next _ => false
      | .fault _ => false) = true := by decide +kernel

theorem test_witness_NanSourceGivesCanonicalNan :
    (Instr.divrem 2 3 0 1).wf = true ∧ SourcesWf (.divrem 2 3 0 1) (at2 one dirtyNan) ∧
    (1 : Reg) ∈ sourcesOf (.divrem 2 3 0 1) ∧ ((at2 one dirtyNan).reg 1).nan = true := by decide +kernel

/-- A command of each frame: the storing ones keep RES and every other register and word, CMP keeps every register. -/
theorem test_witness_CommandFrame :
    (Instr.add 2 0 1).wf = true ∧ (3 : Reg) ∉ destsOf (.add 2 0 1) ∧
    nextMeets (exec (.add 2 0 1) (at2 one two)) (fun t => t.readWord 0x104 == 0 && t.readWord 0x44 == 3
      && t.readWord 0x24 == 2) = true ∧
    nextMeets (exec (.cmp 0 1) (at2 one two)) (fun t => t.readWord 0x104 == 0xFFFFFFFF && t.readWord 0x44 == 0) = true := by
  decide +kernel

/-! ### The step, the bus and reset (95_test_vectors.md section 2.3) -/

/-- Both sides of R75, at the ends of the opcode range and in each clause: an illegal word sets `ILL` and the host's next
event stands; a legal word decodes. -/
theorem test_witness_IllegalWordOnlySetsIll :
    ([0x00000000, 0x0C000000, 0xFF000000, 0x01408001, 0x01409000, 0x05000000, 0x0540A000, 0x06200100, 0x07408401,
        0x08208000, 0x0A208000] : List Word).all
      (fun c => nextIs (step (hostAt (at2 one two) (.busWrite 0x100 c)))
        { at2 one two with host := [.busRead 0x104], ill := true }) = true ∧
    decode 0x01000000 = .ok (.add 0 0 0) ∧ decode 0x0BFC0000 = .ok (.abs 7 7) := by decide +kernel

theorem test_witness_StepRunsDecodedCommand :
    (hostAt (at2 one two) (.busWrite 0x100 0x01408000)).host = .busWrite 0x100 0x01408000 :: [.busRead 0x104] ∧
    decode 0x01408000 = .ok (.add 2 0 1) := by decide

theorem test_witness_IdleStepHoldsState : State.reset.host = [] ∧ nextIs (step State.reset) State.reset = true := by
  decide +kernel

/-- A read at each clause's ends: `D0.limb[0]`, `D7.limb[5]`, a reserved slot, CMD, RES, STATUS, the last offset. -/
theorem test_witness_BusReadReturnsMappedWord :
    ([(0x000, 0x3B9AC9FF), (0x024, 1), (0x0F4, 0), (0x018, 0), (0x0FC, 0), (0x100, 0), (0x104, 5), (0x108, 1), (0x10C, 0),
        (0x1FC, 0)] : List (Nat × Word)).all
      (fun c => decide (c.1 % 4 = 0) && decide (c.1 < 0x200)
        && nextIs (step (hostAt { at2 maxInt one with res := 5, ill := true } (.busRead c.1)))
          { at2 maxInt one with res := 5, ill := true, host := [.busRead 0x104], answer := some c.2 }) = true := by
  decide +kernel

/-- `WR 0x0F4, 0x3B9AC9FF` stores `D7.limb[5]`; every offset of the other kinds ignores its write; `WR 0x100` issues. -/
theorem test_witness_BusWriteStoresOrIssuesOrIsIgnored :
    nextIs (step (hostAt State.reset (.busWrite 0x0F4 0x3B9AC9FF)))
      { State.reset.setReg 7 ⟨0, 0, 0, 0, 0, 0x3B9AC9FF⟩ with host := [.busRead 0x104] } = true ∧
    nextIs (step (hostAt State.reset (.busWrite 0x000 0xFFFFFFFF)))
      { State.reset.setReg 0 ⟨0xFFFFFFFF, 0, 0, 0, 0, 0⟩ with host := [.busRead 0x104] } = true ∧
    ([0x018, 0x01C, 0x0FC, 0x104, 0x108, 0x10C, 0x1FC] : List Nat).all
      (fun off => nextIs (step (hostAt { State.reset with ill := true } (.busWrite off 0xDEADBEEF)))
        { State.reset with ill := true, host := [.busRead 0x104] }) = true ∧
    nextIs (step (hostAt (at2 one two) (.busWrite 0x100 0x01408000)))
      { (at2 one two).setReg 2 three with host := [.busRead 0x104] } = true := by decide +kernel

/-- The outcome is the one fault. -/
def stuck (o : Host.Outcome State Fault Refusal) : Bool :=
  match o with
  | .fault r => decide (r = .notATransaction)
  | .next _ => false
  | .refused _ => false

theorem test_witness_OtherAccessesAreStuck :
    stuck (step (hostAt State.reset (.busRead 0x102))) = true ∧ stuck (step (hostAt State.reset (.busRead 0x200))) = true ∧
    stuck (step (hostAt State.reset (.busWrite 1 0))) = true ∧ stuck (step (hostAt State.reset (.busWrite 0x200 0))) = true ∧
    (1 : Nat) ≠ 4 ∧ stuck (step (hostAt State.reset (.otherWidth 1 0))) = true := by decide +kernel

theorem test_witness_LoadValueFillsRegister :
    ({ at2 one two with host := loadValue 1 maxInt ++ [.busRead 0x104] } : State).host
      = loadValue 1 maxInt ++ [.busRead 0x104] := by decide +kernel

/-- A command keeps `ILL`, a reset clears it. -/
theorem test_witness_OnlyResetClearsIll :
    nextMeets (step (hostAt { at2 one two with ill := true } (cmdWrite 0x01408000))) (fun t => t.ill) = true ∧
    nextMeets (step (hostAt { at2 one two with ill := true } .reset)) (fun t => !t.ill) = true := by decide +kernel

theorem test_witness_ResetClearsEverything :
    nextIs (step (hostAt { at2 maxInt two with res := 1, ill := true, answer := some 7 } .reset))
      { State.reset with host := [.busRead 0x104] } = true := by decide +kernel

theorem test_witness_StepKeepsResLegal :
    ResLegal (hostAt (at2 one two) (cmdWrite 0x08008000)) ∧
    nextMeets (step (hostAt (at2 one two) (cmdWrite 0x08008000))) (fun t => t.res == 0xFFFFFFFF) = true := by
  decide +kernel

/-- Four actions of a host that keeps R251, from a state whose registers are well-formed. -/
theorem test_witness_DisciplinedHostNeverStops :
    ([.load 1 maxInt, .issue 0x0540A000, .read 0x1FC, .ignoredWrite 0x104 5, .reset] : List HostAction).all
      HostAction.disciplined = true ∧ AllWf (at2 one two) := by decide +kernel

/-! ### The host's texts (95_test_vectors.md section 1) -/

theorem test_text_values :
    valueOfText ['1', 'e', '1', '8'] = some ovfMax ∧ valueOfText ['1', 'e', '-', '3', '7'] = some unfZero ∧
    valueOfText [] = some notANumber ∧ valueOfText ['-', '2', '.', '5', '0'] = some minusTwoHalf ∧
    valueOfText ['-', '0'] = some zeroValue := by decide +kernel

theorem test_text_errors :
    parse ['+', '-', '1'] = .error .multipleMinus ∧ parse ['-', '+', '1'] = .error .multiplePlus ∧
    valueText minusTwoHalf = ['-', '2', '.', '5'] := by decide +kernel

/-- `0.` + 53 zeros + `1e60` is `10^6` by the steps and by value; `1` + 54 zeros + `e-54` overflows by R195's steps and
is `1` by R199 (log entry 10). -/
theorem test_text_by_value :
    valueOfText (['0', '.'] ++ List.replicate 53 '0' ++ ['1', 'e', '6', '0']) = some ⟨0, 1000000, 0, 0, 0, 0⟩ ∧
    valueOfTextByValue (['0', '.'] ++ List.replicate 53 '0' ++ ['1', 'e', '6', '0']) = some ⟨0, 1000000, 0, 0, 0, 0⟩ ∧
    valueOfText ('1' :: List.replicate 54 '0' ++ ['e', '-', '5', '4']) = some ovfMax ∧
    valueOfTextByValue ('1' :: List.replicate 54 '0' ++ ['e', '-', '5', '4']) = some one := by decide +kernel

/-- R200's and section 1's examples by value: `1e18`, `1e-37`, `12345e-40`, `1.5e1`. -/
theorem test_text_by_value_examples :
    valueOfTextByValue ['1', 'e', '1', '8'] = some ovfMax ∧ valueOfTextByValue ['1', 'e', '-', '3', '7'] = some unfZero ∧
    valueOfTextByValue ['1', '2', '3', '4', '5', 'e', '-', '4', '0'] = some ⟨0, 0, 0, 0x80000000, 0, 1⟩ ∧
    valueOfTextByValue ['1', '.', '5', 'e', '1'] = some ⟨0, 15, 0, 0, 0, 0⟩ := by decide +kernel

theorem test_witness_DigitsRoundTrip : unfTenth.wf = true ∧ dirtyNan.wf = true ∧ dirtyNan.nan = true := by decide +kernel

end Sys2Proof.Tests
end

section
/-! The inversion lemmas that the invariants rest on: a command that the encoding can express either runs to
`State.afterCommand` or is refused by its first ill-formed source (`exec_eq`), and a step that answers is idle
(`step_next_cases`) or one of the five cases of `runEvent_next_cases`. -/

namespace Sys2Proof.Machine

/-! ### Decoded words are commands (30_encoding.md R73, R75) -/

theorem requireZero_ok {b : Bool} {i j : Instr} (h : requireZero b i = .ok j) : j = i := by
  cases b
  · cases h
  · exact (Except.ok.inj h).symm

/-- The decoder answers only commands that the encoding can express: ROUND's `places` comes from eight bits, and equal
destinations of DIVREM are rejected. -/
theorem decode_wf {c : Word} {i : Instr} (h : decode c = .ok i) : i.wf = true := by
  unfold decode decodeFields at h
  split at h
  case h_5 =>
    split at h
    · cases h
    next hne =>
      obtain rfl := requireZero_ok h
      simpa only [Instr.wf, decide_eq_true_eq] using fun heq => hne (BitVec.eq_of_toFin_eq heq)
  case h_6 =>
    obtain rfl := requireZero_ok h
    have hlo := BitVec.le_toInt (fieldsOf c).places
    have hhi := BitVec.toInt_lt (x := (fieldsOf c).places)
    simp only [Instr.wf, Bool.and_eq_true, decide_eq_true_eq]
    omega
  case h_12 => cases h
  all_goals
    obtain rfl := requireZero_ok h
    rfl

/-! ### What a command does (30_encoding.md R76, R77; 10_state.md R27) -/

/-- The first register that the command reads and that holds an ill-formed value. -/
def State.firstIllFormed (s : State) (i : Instr) : Option Reg :=
  (sourcesOf i).find? fun r => !(s.reg r).wf

/-- The state that a command leaves when it runs (`exec_eq_next_iff`): its results, computed from the
sources read at issue, in its destinations. -/
def State.afterCommand (s : State) (i : Instr) : State :=
  match i with
  | .add rd a b => s.setReg rd ((s.reg a).add (s.reg b))
  | .sub rd a b => s.setReg rd ((s.reg a).sub (s.reg b))
  | .mul rd a b => s.setReg rd ((s.reg a).mul Config.switches (s.reg b))
  | .div rd a b => s.setReg rd ((s.reg a).div (s.reg b))
  | .divrem rd rr a b =>
    (s.setReg rd ((s.reg a).divrem Config.switches (s.reg b)).1).setReg rr
      ((s.reg a).divrem Config.switches (s.reg b)).2
  | .round rd a places mode => s.setReg rd ((s.reg a).round Config.switches places mode)
  | .quanta rd a b mode => s.setReg rd ((s.reg a).quanta Config.switches (s.reg b) mode)
  | .cmp a b => s.setRes (BitVec.ofInt 32 ((s.reg a).cmp (s.reg b)))
  | .eq a b => s.setRes (if (s.reg a).eq (s.reg b) then 1 else 0)
  | .neg rd a => s.setReg rd (s.reg a).negate
  | .abs rd a => s.setReg rd (s.reg a).abs

theorem withSource_eq (a : Reg) (s : State) (k : Value → State) :
    withSource a s k =
      ([a].find? fun r => !(s.reg r).wf).elim (.next (k (s.reg a))) fun r => .refused (.illFormedSource r) := by
  cases ha : (s.reg a).wf <;> simp [withSource, ha]

theorem withSources_eq (a b : Reg) (s : State) (k : Value → Value → State) :
    withSources a b s k =
      ([a, b].find? fun r => !(s.reg r).wf).elim (.next (k (s.reg a) (s.reg b)))
        fun r => .refused (.illFormedSource r) := by
  cases ha : (s.reg a).wf <;> cases hb : (s.reg b).wf <;> simp [withSources, ha, hb]

/-- A command runs, unless a source is ill-formed: then the first such source refuses it. -/
theorem exec_eq {i : Instr} (hi : i.wf = true) (s : State) :
    exec i s = (s.firstIllFormed i).elim (.next (s.afterCommand i)) fun r => .refused (.illFormedSource r) := by
  cases i with
  | divrem rd rr a b =>
    have hne : rd ≠ rr := by simpa [Instr.wf] using hi
    exact (if_neg hne).trans (withSources_eq a b s _)
  | round | neg | abs =>
    simp only [exec, execRound, execNeg, execAbs, withSource_eq]
    rfl
  | add | sub | mul | div | quanta | cmp | eq =>
    simp only [exec, execAdd, execSub, execMul, execDiv, execQuanta, execCmp, execEq, withSources_eq]
    rfl

theorem firstIllFormed_eq_none_iff {s : State} {i : Instr} : s.firstIllFormed i = none ↔ SourcesWf i s := by
  simp [State.firstIllFormed, SourcesWf]

theorem firstIllFormed_eq_some {s : State} {i : Instr} {r : Reg} (h : s.firstIllFormed i = some r) :
    r ∈ sourcesOf i ∧ (s.reg r).wf = false :=
  ⟨List.mem_of_find?_eq_some h, by simpa using List.find?_some h⟩

/-- A command answers a next state exactly when its sources are well-formed, and then that state is its result. -/
theorem exec_eq_next_iff {i : Instr} (hi : i.wf = true) {s t : State} :
    exec i s = .next t ↔ SourcesWf i s ∧ t = s.afterCommand i := by
  rw [exec_eq hi, ← firstIllFormed_eq_none_iff]
  cases s.firstIllFormed i <;> simp [eq_comm]

/-! ### What an event of the host and a step can do (20_memory.md R52, R53; 30_encoding.md R75, R79) -/

/-- An event that does not stop the machine read a word, issued a legal or an illegal command word, wrote a word that is
no command, or was a reset. -/
theorem runEvent_next_cases {e : HostEvent} {s t : State} (h : runEvent e s = .next t) :
    (∃ off, e = .busRead off ∧ t = { s with answer := some (s.readWord off) }) ∨
    (∃ c i, e = cmdWrite c ∧ decode c = .ok i ∧ SourcesWf i s ∧ t = s.afterCommand i) ∨
    (∃ c why, e = cmdWrite c ∧ decode c = .error why ∧ t = s.raiseIll) ∨
    (∃ off w, e = .busWrite off w ∧ locate off ≠ .cmd ∧ t = s.writeWord off w) ∨
    (e = .reset ∧ t = s.doReset) := by
  cases e with
  | busRead off => exact .inl ⟨off, rfl, (busRead_inv h).2⟩
  | busWrite off w =>
    obtain ⟨-, ⟨rfl, hissue⟩ | ⟨hcmd, ht⟩⟩ := busWrite_inv h
    · cases hdec : decode w with
      | ok i =>
        rw [issue_ok hdec, exec_eq_next_iff (decode_wf hdec)] at hissue
        exact .inr (.inl ⟨w, i, rfl, hdec, hissue⟩)
      | error why =>
        rw [issue_error hdec] at hissue
        exact .inr (.inr (.inl ⟨w, why, rfl, hdec, (Host.Outcome.next.inj hissue).symm⟩))
    · exact .inr (.inr (.inr (.inl ⟨off, w, rfl, hcmd, ht⟩)))
  | otherWidth bytes off => cases h
  | reset => exact .inr (.inr (.inr (.inr ⟨rfl, (Host.Outcome.next.inj h).symm⟩)))

/-- A step of a host that has nothing to do (60_exceptions.md R242). -/
theorem step_nil {s : State} (h : s.host = []) : step s = .next s := by
  simp [step, h]

theorem step_cons {s : State} {e : HostEvent} {rest : List HostEvent} (h : s.host = e :: rest) :
    step s = runEvent e (s.takeEvent rest) := by
  simp [step, h]

/-- A step that answers holds the state of an idle host, or takes the host's event. -/
theorem step_next_cases {s t : State} (h : step s = .next t) :
    (s.host = [] ∧ t = s) ∨ ∃ e rest, s.host = e :: rest ∧ runEvent e (s.takeEvent rest) = .next t := by
  cases hh : s.host with
  | nil =>
    rw [step_nil hh] at h
    exact .inl ⟨rfl, (Host.Outcome.next.inj h).symm⟩
  | cons e rest => exact .inr ⟨e, rest, rfl, by rw [← step_cons hh, h]⟩

end Sys2Proof.Machine
end

section
/-! The obligations of 10_state.md: RES stays a legal result (R30), an ill-formed source refuses a command (R27), and
reset clears the state (R36). -/

namespace Sys2Proof.Machine

/-! ### The results of CMP and EQ (10_state.md R30) -/

theorem cmpLimbs_cases (as bs : List Nat) : cmpLimbs as bs = -1 ∨ cmpLimbs as bs = 0 ∨ cmpLimbs as bs = 1 := by
  fun_induction cmpLimbs as bs with
  | case1 => simp
  | case2 => simp
  | case3 _ _ _ _ _ _ ih => exact ih
  | case4 => simp

/-- CMP answers -1, 0 or 1, well-formed operands or not. -/
theorem Value.cmp_cases (x y : Value) : x.cmp y = -1 ∨ x.cmp y = 0 ∨ x.cmp y = 1 := by
  have hmag : cmpMag x.mags y.mags = -1 ∨ cmpMag x.mags y.mags = 0 ∨ cmpMag x.mags y.mags = 1 := cmpLimbs_cases _ _
  unfold Value.cmp
  grind

/-- A command keeps RES, or it is CMP or EQ and writes one of their results. -/
theorem afterCommand_resLegal {s : State} (i : Instr) (h : ResLegal s) : ResLegal (s.afterCommand i) := by
  cases i with
  | cmp a b =>
    obtain hc | hc | hc := (s.reg a).cmp_cases (s.reg b) <;> simp [ResLegal, State.afterCommand, hc]
  | eq a b => cases hq : (s.reg a).eq (s.reg b) <;> simp [ResLegal, State.afterCommand, hq]
  | _ => exact h

theorem runEvent_resLegal {e : HostEvent} {s t : State} (hs : ResLegal s) (h : runEvent e s = .next t) :
    ResLegal t := by
  obtain ⟨off, -, rfl⟩ | ⟨c, i, -, -, -, rfl⟩ | ⟨c, why, -, -, rfl⟩ | ⟨off, w, -, -, rfl⟩ | ⟨-, rfl⟩ :=
    runEvent_next_cases h
  · exact hs
  · exact afterCommand_resLegal i hs
  · exact hs
  · obtain ⟨hres, -, -, -⟩ := writeWord_frame s off w
    simpa only [ResLegal, hres] using hs
  · exact .inr (.inl (res_doReset s))

/-- Settles O13: CMP, EQ and reset are the only writers of RES, and each writes a legal result. -/
theorem stepKeepsResLegal : Obligations.StepKeepsResLegal := by
  intro s t hs h
  obtain ⟨-, rfl⟩ | ⟨e, rest, -, hrun⟩ := step_next_cases h
  · exact hs
  · exact runEvent_resLegal (s := s.takeEvent rest) hs hrun

/-! ### Ill-formed sources (10_state.md R27) -/

/-- Settles O19: the first ill-formed source is the one that refuses the command. -/
theorem illFormedSourceIsRefused : Obligations.IllFormedSourceIsRefused := by
  rintro i s hi ⟨q, hq, hill⟩
  cases hf : s.firstIllFormed i with
  | none => simp [firstIllFormed_eq_none_iff.mp hf q hq] at hill
  | some r =>
    obtain ⟨hmem, hr⟩ := firstIllFormed_eq_some hf
    exact ⟨r, hmem, hr, by rw [exec_eq hi, hf]; rfl⟩

/-! ### Reset (10_state.md R36, 70_reset_and_hazards.md R250) -/

@[simp] theorem limb_zeroValue (j : Fin 6) : zeroValue.limb j = 0 := by
  fin_cases j <;> rfl

theorem step_reset {s : State} {rest : List HostEvent} (h : s.host = .reset :: rest) :
    step s = .next (s.takeEvent rest).doReset :=
  step_cons h

/-- Settles O12: the next state is `State.doReset` of the state whose event is taken. -/
theorem resetClearsEverything : Obligations.ResetClearsEverything := by
  refine ⟨fun s rest h => ⟨_, step_reset h, ?_⟩, ?_⟩ <;> simp

/-- Settles O14: RES is 0 and every register holds `zeroValue`, which is well-formed. -/
theorem resetIsLegal : Obligations.ResetIsLegal :=
  ⟨.inr (.inl res_reset), fun r => by rw [reg_reset, wf_zeroValue]⟩

end Sys2Proof.Machine
end

section
/-! The obligations of 20_memory.md: what a bus read returns (R51, R52), what a bus write does (R53), and which accesses
are no transaction (R54). The address map is inverted once (`locate_cases`); what a step does with a transaction is said
once (`step_busRead`, `step_busWrite_of_ne_cmd`, `step_busWrite_cmd`). -/

namespace Sys2Proof.Machine

/-! ### The address map, from offsets to locations (20_memory.md R51) -/

/-- What an aligned offset is, and what stands there; past the limb words, CMD, RES and STATUS all is reserved. -/
theorem locate_cases {off : Nat} (h4 : off % 4 = 0) :
    (∃ (r : Reg) (j : Fin 6), off = 0x20 * r.val + 4 * j.val ∧ locate off = .limb r j) ∨
    (off = 0x100 ∧ locate off = .cmd) ∨ (off = 0x104 ∧ locate off = .res) ∨
    (off = 0x108 ∧ locate off = .status) ∨ locate off = .reserved := by
  by_cases hlt : off < 0x100
  · by_cases hj : off % 0x20 / 4 < 6
    · refine .inl ⟨Fin.ofNat 8 (off / 0x20), ⟨off % 0x20 / 4, hj⟩, ?_, by simp [locate, hlt, hj]⟩
      simp only [Fin.ofNat]
      omega
    · simp [locate, hlt, hj]
  · by_cases hc : off = 0x100
    · simp [hc]
    · by_cases hr : off = 0x104
      · simp [hr]
      · by_cases hs : off = 0x108
        · simp [hs]
        · simp [locate, hlt, hc, hr, hs]

theorem isTransaction_iff {off : Nat} : isTransaction off = true ↔ off % 4 = 0 ∧ off < 0x200 := by
  simp [isTransaction]

/-! ### Words of the window (R52, R53) -/

theorem readWord_limb (s : State) (r : Reg) (j : Fin 6) :
    s.readWord (0x20 * r.val + 4 * j.val) = (s.reg r).limb j := by
  simp [State.readWord, locate_limb]

@[simp] theorem readWord_res (s : State) : s.readWord 0x104 = s.res := rfl
@[simp] theorem readWord_status (s : State) : s.readWord 0x108 = s.status := rfl

/-- CMD and every reserved offset read 0. -/
theorem readWord_eq_zero (s : State) {off : Nat} (h4 : off % 4 = 0)
    (hlimb : ∀ (r : Reg) (j : Fin 6), off ≠ 0x20 * r.val + 4 * j.val) (hres : off ≠ 0x104) (hstatus : off ≠ 0x108) :
    s.readWord off = 0 := by
  obtain ⟨r, j, hoff, -⟩ | ⟨-, hloc⟩ | ⟨hoff, -⟩ | ⟨hoff, -⟩ | hloc := locate_cases h4
  · exact absurd hoff (hlimb r j)
  · simp [State.readWord, hloc]
  · exact absurd hoff hres
  · exact absurd hoff hstatus
  · simp [State.readWord, hloc]

theorem writeWord_limb (s : State) (r : Reg) (j : Fin 6) (w : Word) :
    s.writeWord (0x20 * r.val + 4 * j.val) w = s.setReg r ((s.reg r).setLimb j w) := by
  simp [State.writeWord, locate_limb]

/-- Only limb words store what is written. -/
theorem writeWord_eq_self (s : State) {off : Nat} (w : Word) (h4 : off % 4 = 0)
    (hlimb : ∀ (r : Reg) (j : Fin 6), off ≠ 0x20 * r.val + 4 * j.val) : s.writeWord off w = s := by
  obtain ⟨r, j, hoff, -⟩ | ⟨-, hloc⟩ | ⟨-, hloc⟩ | ⟨-, hloc⟩ | hloc := locate_cases h4
  · exact absurd hoff (hlimb r j)
  all_goals simp [State.writeWord, hloc]

theorem limb_setLimb (v : Value) (j k : Fin 6) (w : Word) :
    (v.setLimb j w).limb k = if k = j then w else v.limb k := by
  by_cases h : k = j
  · simp [h]
  · simp [h, limb_setLimb_ne v w h]

/-- Every limb word of the window after a write to one of them. -/
theorem limb_reg_writeWord (s : State) (r q : Reg) (j k : Fin 6) (w : Word) :
    ((s.writeWord (0x20 * r.val + 4 * j.val) w).reg q).limb k =
      if q = r ∧ k = j then w else (s.reg q).limb k := by
  rw [writeWord_limb, reg_setReg]
  by_cases hq : q = r
  · simp [hq, limb_setLimb]
  · simp [hq]

/-! ### A step whose event is a bus access (R52 to R54) -/

theorem step_busRead {s : State} {off : Nat} {rest : List HostEvent} (h : s.host = .busRead off :: rest)
    (ht : isTransaction off = true) :
    step s = .next { s with host := rest, answer := some (s.readWord off) } := by
  rw [step_cons h, runEvent, busRead, if_pos ht, readWord_takeEvent]
  rfl

theorem step_busWrite_of_ne_cmd {s : State} {off : Nat} {w : Word} {rest : List HostEvent}
    (h : s.host = .busWrite off w :: rest) (ht : isTransaction off = true) (hc : locate off ≠ .cmd) :
    step s = .next ((s.takeEvent rest).writeWord off w) := by
  rw [step_cons h, runEvent, busWrite, if_pos ht, if_neg hc]

theorem step_busWrite_cmd {s : State} {w : Word} {rest : List HostEvent} (h : s.host = .busWrite 0x100 w :: rest) :
    step s = issue w (s.takeEvent rest) :=
  step_cons h

theorem step_busRead_stuck {s : State} {off : Nat} {rest : List HostEvent} (h : s.host = .busRead off :: rest)
    (ht : ¬ isTransaction off = true) : step s = .fault .notATransaction := by
  rw [step_cons h, runEvent, busRead, if_neg ht]

theorem step_busWrite_stuck {s : State} {off : Nat} {w : Word} {rest : List HostEvent}
    (h : s.host = .busWrite off w :: rest) (ht : ¬ isTransaction off = true) :
    step s = .fault .notATransaction := by
  rw [step_cons h, runEvent, busWrite, if_neg ht]

/-! ### The obligations -/

/-- Settles O7: the word is `State.readWord`, read location by location. -/
theorem busReadReturnsMappedWord : Obligations.BusReadReturnsMappedWord := by
  intro s off rest h h4 hwin
  refine ⟨s.readWord off, step_busRead h (isTransaction_iff.mpr ⟨h4, hwin⟩), ?_, ?_, ?_, readWord_eq_zero s h4⟩
  · rintro r j rfl
    exact readWord_limb s r j
  · rintro rfl
    exact readWord_res s
  · rintro rfl
    exact readWord_status s

/-- Settles O8: a limb word by `limb_reg_writeWord` and `writeWord_frame`, CMD by `step_busWrite_cmd`, and every other
offset by `writeWord_eq_self`. -/
theorem busWriteStoresOrIssuesOrIsIgnored : Obligations.BusWriteStoresOrIssuesOrIsIgnored := by
  intro s off w rest h h4 hwin
  have ht := isTransaction_iff.mpr ⟨h4, hwin⟩
  refine ⟨?_, ?_, ?_⟩
  · rintro r j rfl
    obtain ⟨hres, hill, hhost, hanswer⟩ := writeWord_frame (s.takeEvent rest) (0x20 * r.val + 4 * j.val) w
    refine ⟨_, step_busWrite_of_ne_cmd h ht (by simp [locate_limb]), ?_, ?_, hres, hill, hhost, hanswer⟩
    · simp [limb_reg_writeWord]
    · intro q k hne
      rw [limb_reg_writeWord, if_neg hne, reg_takeEvent]
  · rintro rfl
    exact step_busWrite_cmd h
  · intro hlimb hcmd
    rw [step_busWrite_of_ne_cmd h ht (fun hloc => hcmd (locate_eq_cmd hloc)), writeWord_eq_self _ w h4 hlimb]
    rfl

/-- Settles O9: such an offset is no `isTransaction`, and an access of another width never answers. -/
theorem otherAccessesAreStuck : Obligations.OtherAccessesAreStuck := by
  intro s off bytes w rest
  refine ⟨fun hoff => ?_, fun _ h => step_cons h⟩
  have ht : ¬ isTransaction off = true := by
    rw [isTransaction_iff]
    omega
  exact ⟨fun h => step_busRead_stuck h ht, fun h => step_busWrite_stuck h ht⟩

end Sys2Proof.Machine
end

section
/-! The obligations of 30_encoding.md on the command word: decoding and encoding are inverse to each other (R71 to R75),
both through the fields (`decodeFields_encodeFields`, `encodeFields_of_decodeFields`), and which words are commands
(`exists_decode_iff`). -/

namespace Sys2Proof.Machine

/-! ### Operands and their fields (30_encoding.md R71, R73) -/

@[simp] theorem toFin_regBits (r : Reg) : (regBits r).toFin = r := rfl

@[simp] theorem regBits_toFin (b : BitVec 3) : regBits b.toFin = b := rfl

theorem regBits_inj {p q : Reg} : regBits p = regBits q ↔ p = q :=
  ⟨fun h => congrArg BitVec.toFin h, congrArg regBits⟩

@[simp] theorem modeOfBits_bitsOfMode (m : Mode) : modeOfBits (bitsOfMode m) = m := by
  cases m <;> rfl

@[simp] theorem bitsOfMode_modeOfBits (b : BitVec 2) : bitsOfMode (modeOfBits b) = b := by
  revert b
  decide

/-- ROUND's `places` survives its eight bits (R73). -/
theorem toInt_ofInt_places {places : Int} (hlo : -128 ≤ places) (hhi : places ≤ 127) :
    (BitVec.ofInt 8 places).toInt = places :=
  BitVec.toInt_ofInt_eq_self (by decide) hlo (by omega)

/-! ### Decoding an encoded command (R71 to R74) -/

theorem decodeFields_encodeFields {i : Instr} (hi : i.wf = true) : decodeFields (encodeFields i) = .ok i := by
  cases i with
  | divrem rd rr a b =>
    have hne : regBits rd ≠ regBits rr := by simpa [Instr.wf, regBits_inj] using hi
    exact if_neg hne
  | round rd a places mode =>
    obtain ⟨hlo, hhi⟩ : -128 ≤ places ∧ places ≤ 127 := by simpa [Instr.wf] using hi
    have hround : decodeFields (encodeFields (.round rd a places mode)) =
        .ok (.round rd a (BitVec.ofInt 8 places).toInt (modeOfBits (bitsOfMode mode))) := rfl
    rw [hround, toInt_ofInt_places hlo hhi, modeOfBits_bitsOfMode]
  | quanta rd a b mode =>
    have hquanta : decodeFields (encodeFields (.quanta rd a b mode)) =
        .ok (.quanta rd a b (modeOfBits (bitsOfMode mode))) := rfl
    rw [hquanta, modeOfBits_bitsOfMode]
  | add | sub | mul | div | cmp | eq | neg | abs => rfl

/-- Settles O1: the word of a command has the command's fields, and those decode to it. -/
theorem encodeThenDecode : Obligations.EncodeThenDecode := by
  intro i hi
  rw [decode, encode, fieldsOf_wordOf, decodeFields_encodeFields hi]

/-! ### Encoding a decoded command (R72, R75) -/

theorem requireZero_eq_ok_iff {b : Bool} {i j : Instr} : requireZero b i = .ok j ↔ b = true ∧ i = j := by
  cases b <;> simp [requireZero]

/-- Fields that decode are those of the command they decode to: every field the format does not use is zero. -/
theorem encodeFields_of_decodeFields {f : Fields} {i : Instr} (h : decodeFields f = .ok i) : encodeFields i = f := by
  obtain ⟨op, rd, a, b, rr, mode, zero, places⟩ := f
  have hop (n : Nat) (hn : op.toNat = n) : op = BitVec.ofNat 8 n := by
    rw [← hn, BitVec.ofNat_toNat, BitVec.setWidth_eq]
  unfold decodeFields at h
  split at h
  case h_5 hn =>
    split at h
    · cases h
    next hne =>
      obtain ⟨hz, rfl⟩ := requireZero_eq_ok_iff.mp h
      simp_all [zeroR4, encodeFields, hop _ hn]
  case h_12 => cases h
  all_goals
    next hn =>
      obtain ⟨hz, rfl⟩ := requireZero_eq_ok_iff.mp h
      simp_all [zeroR3, zeroR3M, zeroRI, zeroR2, zeroC, encodeFields, hop _ hn]

/-- Settles O2: `decode_wf`, and a word is made up of its fields. -/
theorem decodeThenEncode : Obligations.DecodeThenEncode := by
  intro c i h
  refine ⟨decode_wf h, ?_⟩
  rw [encode, encodeFields_of_decodeFields h, wordOf_fieldsOf]

/-- Settles O3, by evaluating the encoder and the decoder on the examples. -/
theorem workedEncodings : Obligations.WorkedEncodings := by
  unfold Obligations.WorkedEncodings
  decide

end Sys2Proof.Machine
end

section
/-! The obligations of 30_encoding.md on the effect of a command word: an illegal word only sets `STATUS.ILL` (R75), a
legal one runs as the command it decodes to (R76, R79) and changes only its destinations (R78), and a load fills its
register (R81). -/

namespace Sys2Proof.Machine

/-! ### Which words are commands (30_encoding.md R72, R75) -/

theorem wordOf_inj {f g : Fields} : wordOf f = wordOf g ↔ f = g :=
  ⟨fun h => by rw [← fieldsOf_wordOf f, h, fieldsOf_wordOf], congrArg wordOf⟩

/-- A mask test, field by field. -/
theorem and_wordOf_eq_zero_iff {c : Word} {g : Fields} :
    c &&& wordOf g = 0 ↔ (fieldsOf c).op &&& g.op = 0 ∧ (fieldsOf c).rd &&& g.rd = 0 ∧
      (fieldsOf c).rs1 &&& g.rs1 = 0 ∧ (fieldsOf c).rs2 &&& g.rs2 = 0 ∧ (fieldsOf c).rr &&& g.rr = 0 ∧
      (fieldsOf c).mode &&& g.mode = 0 ∧ (fieldsOf c).zero &&& g.zero = 0 ∧ (fieldsOf c).places &&& g.places = 0 := by
  have hzero : (0 : Word) = wordOf ⟨0, 0, 0, 0, 0, 0, 0, 0⟩ := rfl
  have hand := wordOf_and (fieldsOf c) g
  rw [wordOf_fieldsOf] at hand
  rw [hand, hzero, wordOf_inj, Fields.mk.injEq]

theorem toNat_op_fieldsOf (c : Word) : (fieldsOf c).op.toNat = c.toNat / 2 ^ 24 := by
  have h := c.isLt
  simp only [fieldsOf, BitVec.extractLsb'_toNat, Nat.shiftRight_eq_div_pow]
  omega

theorem toNat_rd_fieldsOf (c : Word) : (fieldsOf c).rd.toNat = c.toNat / 2 ^ 21 % 8 := by
  simp only [fieldsOf, BitVec.extractLsb'_toNat, Nat.shiftRight_eq_div_pow]

theorem toNat_rr_fieldsOf (c : Word) : (fieldsOf c).rr.toNat = c.toNat / 2 ^ 12 % 8 := by
  simp only [fieldsOf, BitVec.extractLsb'_toNat, Nat.shiftRight_eq_div_pow]

/-- The decoder's test of the fields that the opcode's format does not use (`exists_decodeFields_iff`). -/
def unusedZero (f : Fields) : Bool :=
  if f.op.toNat ≤ 4 then zeroR3 f else if f.op.toNat = 5 then zeroR4 f else if f.op.toNat = 6 then zeroRI f
  else if f.op.toNat = 7 then zeroR3M f else if f.op.toNat ≤ 9 then zeroC f else zeroR2 f

/-- The bits of those fields in the word (`and_unusedMask_eq_zero_iff`). -/
def unusedMask (op : Nat) : Word :=
  if op ≤ 4 then 0x00007FFF else if op = 5 then 0x00000FFF else if op = 6 then 0x0003F300
  else if op = 7 then 0x000073FF else if op ≤ 9 then 0x00E07FFF else 0x0003FFFF

/-- The decoder accepts the opcodes 1 to 11 whose unused fields are zero, but DIVREM with equal destinations. -/
theorem exists_decodeFields_iff (f : Fields) :
    (∃ i, decodeFields f = .ok i) ↔
      f.op.toNat ≠ 0 ∧ f.op.toNat < 12 ∧ unusedZero f = true ∧ ¬ (f.op.toNat = 5 ∧ f.rd = f.rr) := by
  unfold decodeFields
  split
  case h_5 hop => by_cases heq : f.rd = f.rr <;> simp [hop, heq, unusedZero, requireZero_eq_ok_iff]
  case h_12 =>
    simp only [reduceCtorEq, exists_false, false_iff]
    grind
  all_goals
    next hop => simp [hop, unusedZero, requireZero_eq_ok_iff]

theorem and_unusedMask_eq_zero_iff (c : Word) :
    c &&& unusedMask (c.toNat / 2 ^ 24) = 0 ↔ unusedZero (fieldsOf c) = true := by
  unfold unusedMask unusedZero
  rw [toNat_op_fieldsOf]
  split_ifs
  · exact (and_wordOf_eq_zero_iff (g := ⟨0, 0, 0, 0, .allOnes 3, .allOnes 2, .allOnes 2, .allOnes 8⟩)).trans
      (by simp [zeroR3, and_assoc, -BitVec.reduceAllOnes])
  · exact (and_wordOf_eq_zero_iff (g := ⟨0, 0, 0, 0, 0, .allOnes 2, .allOnes 2, .allOnes 8⟩)).trans
      (by simp [zeroR4, and_assoc, -BitVec.reduceAllOnes])
  · exact (and_wordOf_eq_zero_iff (g := ⟨0, 0, 0, .allOnes 3, .allOnes 3, 0, .allOnes 2, 0⟩)).trans
      (by simp [zeroRI, and_assoc, -BitVec.reduceAllOnes])
  · exact (and_wordOf_eq_zero_iff (g := ⟨0, 0, 0, 0, .allOnes 3, 0, .allOnes 2, .allOnes 8⟩)).trans
      (by simp [zeroR3M, and_assoc, -BitVec.reduceAllOnes])
  · exact (and_wordOf_eq_zero_iff (g := ⟨0, .allOnes 3, 0, 0, .allOnes 3, .allOnes 2, .allOnes 2, .allOnes 8⟩)).trans
      (by simp [zeroC, and_assoc, -BitVec.reduceAllOnes])
  · exact (and_wordOf_eq_zero_iff (g := ⟨0, 0, 0, .allOnes 3, .allOnes 3, .allOnes 2, .allOnes 2, .allOnes 8⟩)).trans
      (by simp [zeroR2, and_assoc, -BitVec.reduceAllOnes])

/-- The command words are those that no clause of R75 rejects. -/
theorem exists_decode_iff (c : Word) :
    (∃ i, decode c = .ok i) ↔
      ¬ (c.toNat / 2 ^ 24 = 0 ∨ c.toNat / 2 ^ 24 ≥ 0x0C ∨ c &&& unusedMask (c.toNat / 2 ^ 24) ≠ 0 ∨
        (c.toNat / 2 ^ 24 = 5 ∧ c.toNat / 2 ^ 21 % 8 = c.toNat / 2 ^ 12 % 8)) := by
  have hfields := exists_decodeFields_iff (fieldsOf c)
  rw [toNat_op_fieldsOf, ← BitVec.toNat_inj, toNat_rd_fieldsOf, toNat_rr_fieldsOf,
    ← and_unusedMask_eq_zero_iff] at hfields
  rw [decode, hfields]
  simp only [not_or, ge_iff_le, not_le, ne_eq, not_not]

/-- Settles O4: the statement's condition is that of `exists_decode_iff`, and a word that does not decode raises ILL. -/
theorem illegalWordOnlySetsIll : Obligations.IllegalWordOnlySetsIll := by
  intro c s rest h op unused illegal
  have hlegal : (∃ i, decode c = .ok i) ↔ ¬ illegal := exists_decode_iff c
  refine ⟨fun hill => ?_, hlegal.mpr⟩
  cases hdec : decode c with
  | ok i => exact absurd hill (hlegal.mp ⟨i, hdec⟩)
  | error why =>
    rw [step_busWrite_cmd h, issue_error hdec]
    rfl

/-- Settles O5: a write to CMD issues its word, and a word that decodes runs. -/
theorem stepRunsDecodedCommand : Obligations.StepRunsDecodedCommand := by
  intro s c i rest h hdec
  rw [step_busWrite_cmd h, issue_ok hdec]
  rfl

/-! ### Loading a value (30_encoding.md R81, 20_memory.md R53) -/

/-- A run goes on after a write to a limb word. -/
theorem run_busWrite_limb {s : State} {r : Reg} {j : Fin 6} {w : Word} {rest : List HostEvent}
    (h : s.host = .busWrite (limbOffset r j) w :: rest) (k : Nat) :
    Host.Core.run core (k + 1) s = Host.Core.run core k ((s.setReg r ((s.reg r).setLimb j w)).takeEvent rest) := by
  have hstep : step s = .next ((s.setReg r ((s.reg r).setLimb j w)).takeEvent rest) := by
    have hloc : locate (limbOffset r j) ≠ .cmd := by simp [limbOffset, locate_limb]
    rw [step_busWrite_of_ne_cmd h (isTransaction_limb r j) hloc, limbOffset, writeWord_limb]
    rfl
  simp only [Host.Core.run, core, hstep]

@[simp] theorem takeEvent_setReg (s : State) (r : Reg) (v : Value) (l : List HostEvent) :
    (s.takeEvent l).setReg r v = (s.setReg r v).takeEvent l := rfl

@[simp] theorem takeEvent_takeEvent (s : State) (l m : List HostEvent) :
    (s.takeEvent l).takeEvent m = s.takeEvent m := rfl

@[simp] theorem setReg_setReg (s : State) (r : Reg) (v w : Value) : (s.setReg r v).setReg r w = s.setReg r w := by
  simp [State.setReg]

/-- Six word writes overwrite a whole value. -/
theorem setLimb_all (u v : Value) :
    (((((u.setLimb 0 v.limb0).setLimb 1 v.limb1).setLimb 2 v.limb2).setLimb 3 v.limb3).setLimb 4 v.limb4).setLimb 5
      v.limb5 = v := rfl

/-- Settles O10: the six writes one by one, then `setLimb_all`. -/
theorem loadValueFillsRegister : Obligations.LoadValueFillsRegister := by
  intro s r v rest h
  rw [run_busWrite_limb h, run_busWrite_limb rfl, run_busWrite_limb rfl, run_busWrite_limb rfl, run_busWrite_limb rfl,
    run_busWrite_limb rfl]
  simp only [takeEvent_setReg, takeEvent_takeEvent, setReg_setReg, reg_takeEvent, reg_setReg_self, setLimb_all]
  rfl

/-! ### What a command leaves unchanged (30_encoding.md R78, 10_state.md R35) -/

theorem reg_afterCommand_of_notMem {s : State} {i : Instr} {q : Reg} (hq : q ∉ destsOf i) :
    (s.afterCommand i).reg q = s.reg q := by
  cases i with
  | divrem rd rr a b =>
    obtain ⟨hrd, hrr⟩ : q ≠ rd ∧ q ≠ rr := by simpa [destsOf] using hq
    exact (reg_setReg_ne _ _ hrr).trans (reg_setReg_ne _ _ hrd)
  | cmp | eq => rfl
  | add | sub | mul | div | round | quanta | neg | abs => exact reg_setReg_ne _ _ (by simpa [destsOf] using hq)

theorem res_afterCommand {s : State} {i : Instr} (hcmp : ∀ a b, i ≠ .cmp a b) (heq : ∀ a b, i ≠ .eq a b) :
    (s.afterCommand i).res = s.res := by
  cases i with
  | cmp a b => exact absurd rfl (hcmp a b)
  | eq a b => exact absurd rfl (heq a b)
  | _ => rfl

@[simp] theorem ill_afterCommand (s : State) (i : Instr) : (s.afterCommand i).ill = s.ill := by
  cases i <;> rfl

@[simp] theorem host_afterCommand (s : State) (i : Instr) : (s.afterCommand i).host = s.host := by
  cases i <;> rfl

@[simp] theorem answer_afterCommand (s : State) (i : Instr) : (s.afterCommand i).answer = s.answer := by
  cases i <;> rfl

/-- The word read at an offset depends on nothing but what the address map puts there. -/
theorem readWord_congr {s t : State} {off : Nat} (h4 : off % 4 = 0)
    (hreg : ∀ (r : Reg) (j : Fin 6), off = 0x20 * r.val + 4 * j.val → t.reg r = s.reg r)
    (hres : off = 0x104 → t.res = s.res) (hill : t.ill = s.ill) : t.readWord off = s.readWord off := by
  obtain ⟨r, j, hoff, hloc⟩ | ⟨-, hloc⟩ | ⟨hoff, hloc⟩ | ⟨-, hloc⟩ | hloc := locate_cases h4
  · simp [State.readWord, hloc, hreg r j hoff]
  · simp [State.readWord, hloc]
  · simp [State.readWord, hloc, hres hoff]
  · simp [State.readWord, hloc, State.status, hill]
  · simp [State.readWord, hloc]

/-- Settles O17: the state is `State.afterCommand`, and its words are read through `readWord_congr`. -/
theorem commandFrame : Obligations.CommandFrame := by
  intro i s t hi h
  obtain ⟨-, rfl⟩ := (exec_eq_next_iff hi).mp h
  refine ⟨fun q hq => reg_afterCommand_of_notMem hq, res_afterCommand, ill_afterCommand s i, host_afterCommand s i,
    answer_afterCommand s i, fun off h4 hdest hres => readWord_congr h4 ?_ ?_ (ill_afterCommand s i)⟩
  · exact fun r j hoff => reg_afterCommand_of_notMem fun hmem => hdest r hmem j hoff
  · exact fun hoff => res_afterCommand (hres hoff).1 (hres hoff).2

end Sys2Proof.Machine
end

section
/-! What keeps the magnitudes of a result below the radix: setting one limb, the rounding unit (44_round.md R150) and
the multiplier's accumulator (42_mul.md R121). -/

namespace Sys2Proof.Machine

open Config

/-! ### One limb of six -/

theorem Mags.inRange_iff_get {a : Mags} : a.inRange = true ↔ ∀ k < 6, a.get k < radix := by
  rw [Mags.inRange_iff]
  constructor
  · rintro ⟨h0, h1, h2, h3, h4, h5⟩ k hk
    interval_cases k <;> assumption
  · intro h
    exact ⟨h 0 (by decide), h 1 (by decide), h 2 (by decide), h 3 (by decide), h 4 (by decide), h 5 (by decide)⟩

theorem Mags.get_set (a : Mags) {i k : Nat} (hi : i < 6) (hk : k < 6) (n : Nat) :
    (a.set i n).get k = if k = i then n else a.get k := by
  interval_cases i <;> interval_cases k <;> rfl

theorem Mags.inRange_set {a : Mags} (ha : a.inRange = true) {i n : Nat} (hi : i < 6) (hn : n < radix) :
    (a.set i n).inRange = true := by
  rw [Mags.inRange_iff_get] at ha ⊢
  intro k hk
  rw [Mags.get_set a hi hk]
  split
  · exact hn
  · exact ha k hk

/-! ### The rounding unit (R150 lines 11 to 25) -/

theorem inRange_clearBelow {m : Mags} (hm : m.inRange = true) (L : Nat) : (clearBelow m L).inRange = true := by
  refine List.foldlRecOn (motive := fun a : Mags => a.inRange = true) [1, 2, 3, 4, 5] _ hm fun a ha i hi => ?_
  have hi6 : i < 6 := by
    revert i
    decide
  split
  · exact Mags.inRange_set ha hi6 (by decide)
  · exact ha

theorem inRange_of_get {m : Mags} {i : Nat} (hothers : ∀ k < 6, k ≠ i → m.get k < radix) (hlimb : m.get i < radix) :
    m.inRange = true :=
  Mags.inRange_iff_get.mpr fun k hk => if hki : k = i then hki ▸ hlimb else hothers k hk hki

/-- A carry takes the radix off one limb and adds 1 to the next, so only one limb at a time can reach the radix. -/
theorem inRange_carryLeft (m : Mags) {i : Nat} (hi : i < 6) (hothers : ∀ k < 6, k ≠ i → m.get k < radix)
    (hlimb : m.get i < 2 * radix) : (carryLeft m i).1.inRange = true := by
  induction i generalizing m with
  | zero =>
    rw [carryLeft]
    split
    · refine inRange_of_get (i := 0) (fun k hk hk0 => ?_) ?_
      · rw [Mags.get_set m hi hk, if_neg hk0]
        exact hothers k hk hk0
      · rw [Mags.get_set m hi hi, if_pos rfl]
        omega
    · exact inRange_of_get hothers (not_le.mp ‹_›)
  | succ i ih =>
    rw [carryLeft]
    split
    · have hi' : i < 6 := by omega
      have hnext : m.get i < radix := hothers i hi' (by omega)
      refine ih _ hi' (fun k hk hki => ?_) ?_
      · rw [Mags.get_set _ hi' hk, if_neg hki, Mags.get_set m hi hk]
        split
        · omega
        · exact hothers k hk ‹_›
      · rw [Mags.get_set _ hi' hi', if_pos rfl]
        omega
    · exact inRange_of_get hothers (not_le.mp ‹_›)

/-- Rounding leaves every limb below the radix, whether or not a carry leaves limb 0. -/
theorem inRange_roundMags (sw : Switches) {m : Mags} (hm : m.inRange = true) {places : Nat}
    (hp : places < 36) (mode : Mode) : (roundMags sw m places mode).1.inRange = true := by
  have hL : roundLimb places < 6 := by
    unfold roundLimb
    omega
  have hunit : roundUnit places ≤ radix := Nat.pow_le_pow_right (by decide) (Nat.sub_le 9 _)
  have hkept : m.get (roundLimb places) - m.get (roundLimb places) % roundUnit places < radix :=
    lt_of_le_of_lt (Nat.sub_le _ _) (Mags.inRange_iff_get.mp hm _ hL)
  have hcut := inRange_clearBelow (Mags.inRange_set hm hL hkept) (roundLimb places)
  simp only [roundMags]
  split
  · refine inRange_carryLeft _ hL (fun k hk hkL => ?_) ?_
    · rw [Mags.get_set _ hL hk, if_neg hkL]
      exact Mags.inRange_iff_get.mp hcut k hk
    · rw [Mags.get_set _ hL hL, if_pos rfl]
      omega
  · exact hcut

/-! ### The multiplier's accumulator (R121) -/

/-- Twelve slots, each but slot 0 below the radix. Slot 0 is below it only for magnitudes in range, and no result takes
its limbs from slot 0. -/
def SlotsInRange (acc : List Nat) : Prop :=
  acc.length = 12 ∧ ∀ k, 0 < k → k < 12 → acc.getD k 0 < radix

theorem accStep_slotsInRange (a b : Mags) {acc : List Nat} (h : SlotsInRange acc) {i j : Nat} (hi : i < 6)
    (hj : j < 6) : SlotsInRange (accStep a b acc (i, j)) := by
  obtain ⟨hlen, hslots⟩ := h
  obtain ⟨hlen', -, hslots'⟩ := renormalise_spec
    (accAdd (accAdd acc (i + j + 1) (a.get i * b.get j % radix)) (i + j) (a.get i * b.get j / radix)) (i + j + 1)
    (by simp only [length_accAdd]; omega) fun k hk hkl => by
      simp only [length_accAdd] at hkl
      rw [getD_accAdd_ne _ (by omega), getD_accAdd_ne _ (by omega)]
      exact hslots k (by omega) (by omega)
  simp only [length_accAdd, hlen] at hlen' hslots'
  exact ⟨hlen', hslots'⟩

theorem product_slotsInRange (a b : Mags) : SlotsInRange (product a b) := by
  have hslots : ∀ k < 12, (List.replicate 12 0).getD k 0 < radix := by decide
  have hzero : SlotsInRange (List.replicate 12 0) := ⟨rfl, fun k _ => hslots k⟩
  refine List.foldlRecOn limbPairs _ hzero fun acc hacc ij hij => ?_
  obtain ⟨hi, hj⟩ : ij.1 < 6 ∧ ij.2 < 6 := by
    revert ij
    decide
  exact accStep_slotsInRange a b hacc hi hj

end Sys2Proof.Machine
end

section
/-! The obligations of 40_value_primitives.md: the values a command writes are well-formed (R97), and `NAN` when a
source is NaN (R99, R100). What each value function answers is said once (`Value.IsResult`, the `_of_nan` lemmas); the
commands are then read off `State.afterCommand`. -/

namespace Sys2Proof.Machine

open Config

/-! ### What R97 and R99 ask of a value that a command writes -/

/-- Well-formed, and NaN only as the canonical `NAN`. -/
structure Value.IsResult (v : Value) : Prop where
  wf : v.wf = true
  eq_nanValue : v.nan = true → v = nanValue

theorem isResult_nanValue : nanValue.IsResult := ⟨wf_nanValue, fun _ => rfl⟩

/-- A well-formed value that is not NaN meets R99 as it stands. -/
theorem isResult_of_wf {v : Value} (hwf : v.wf = true) (hnan : v.nan = false) : v.IsResult :=
  ⟨hwf, fun h => absurd h (by simp [hnan])⟩

theorem isResult_zeroValue : zeroValue.IsResult := isResult_of_wf wf_zeroValue (by decide)

theorem isResult_overflowValue (s u : Bool) : (overflowValue s u).IsResult :=
  isResult_of_wf (wf_overflowValue s u) (nan_packValue _ _ _ _ _)

theorem isResult_finite {s u : Bool} {m : Mags} (hm : m.inRange = true) (hz : s = true → m.isZero = true → u = true) :
    (finite s u m).IsResult :=
  isResult_of_wf (wf_packValue_finite hm hz) (nan_packValue _ _ _ _ _)

theorem isResult_withSign (u s : Bool) {m : Mags} (hm : m.inRange = true) :
    (withSign (finite false u m) s).IsResult :=
  isResult_of_wf (wf_withSign_finite u s hm) (by simp [withSign, finite])

/-- The clauses of R97, one by one. -/
theorem Value.IsResult.clauses {v : Value} (h : v.IsResult) :
    v.wf = true ∧ v.mags.inRange = true ∧ v.reservedZero = true ∧ (v.ovf = true → v.mags = maxMags) ∧
      ¬ (v.neg = true ∧ v.toNat = 0 ∧ v.unf = false) ∧ (v.nan = true → v = nanValue) := by
  cases hnan : v.nan with
  | true =>
    rw [h.eq_nanValue hnan]
    decide
  | false =>
    obtain ⟨hm, hres, hovf, hzero⟩ := wf_finite h.wf hnan
    refine ⟨h.wf, hm, hres, hovf, ?_, nofun⟩
    rintro ⟨hneg, h0, hunf⟩
    have hu := hzero hneg ((Mags.isZero_iff_toNat _).mpr h0)
    simp [hunf] at hu

/-! ### Sign logic (47_negate_abs.md) -/

/-- A new sign keeps a value well-formed, unless it makes an exact zero negative. -/
theorem isResult_setNeg {x : Value} {b : Bool} (hx : x.wf = true) (hnan : x.nan = false)
    (hz : b = true → x.isZero = true → x.unf = true) : (x.setNeg b).IsResult := by
  obtain ⟨hm, hres, hovf, -⟩ := wf_finite hx hnan
  have hmax : (!x.ovf || x.mags == maxMags) = true := by
    cases ho : x.ovf with
    | false => rfl
    | true => simp [hovf ho]
  have hnegZero : (b && x.isZero && !x.unf) = false := by
    by_contra h
    obtain ⟨hb, hx0, hunf⟩ : b = true ∧ x.isZero = true ∧ x.unf = false := by simpa using h
    simp [hz hb hx0] at hunf
  exact isResult_of_wf (by simp [Value.wf, hm, hres, hmax, hnegZero]) hnan

theorem isResult_negate {x : Value} (hx : x.wf = true) : x.negate.IsResult := by
  unfold Value.negate
  split
  · exact isResult_nanValue
  next hn =>
    have hnan : x.nan = false := by simpa using hn
    split
    · exact isResult_setNeg hx hnan (by simp)
    next hexact =>
      obtain ⟨-, -, hmax, -⟩ := wf_finite hx hnan
      refine isResult_setNeg hx hnan fun _ hzero => ?_
      -- overflow stands only on the canonical maximum, so a zero that is not exact is underflowed
      have hovf : x.ovf = false := by
        by_contra ho
        simp [Value.isZero, hmax (by simpa using ho)] at hzero
      simpa [hzero, hovf] using hexact

theorem isResult_abs {x : Value} (hx : x.wf = true) : x.abs.IsResult := by
  unfold Value.abs
  split
  · exact isResult_nanValue
  next hn => exact isResult_setNeg hx (by simpa using hn) (by simp)

/-! ### ADD and SUB (41_add_sub.md) -/

theorem cmpMag_eq_zero_iff {a b : Mags} (ha : a.inRange = true) (hb : b.inRange = true) :
    cmpMag a b = 0 ↔ a.toNat = b.toNat := by
  rw [cmpMag_spec ha hb]
  split_ifs <;> simp <;> omega

theorem cmpMag_pos_iff {a b : Mags} (ha : a.inRange = true) (hb : b.inRange = true) :
    cmpMag a b > 0 ↔ b.toNat < a.toNat := by
  rw [cmpMag_spec ha hb]
  split_ifs <;> simp <;> omega

/-- A difference of magnitudes that is not zero takes any sign. -/
theorem isResult_subMag (s u : Bool) {a b : Mags} (ha : a.inRange = true) (hb : b.inRange = true)
    (hlt : b.toNat < a.toNat) : (finite s u (subMag a b).1).IsResult := by
  obtain ⟨hr, -, hs⟩ := subMag_spec ha hb
  refine isResult_finite hr fun _ hzero => ?_
  rw [Mags.isZero_iff_toNat, subMag_of_le ha hb hlt.le,
    toNat_limbs (lt_of_le_of_lt (Nat.sub_le _ _) (Mags.toNat_lt ha))] at hzero
  omega

/-- A sum of magnitudes is zero only when both are, so a negative zero sum keeps an operand's underflow. -/
theorem isResult_addMag {x y : Value} (hx : x.wf = true) (hnx : x.nan = false) (hy : y.mags.inRange = true)
    (hcarry : (addMag x.mags y.mags).2 ≠ 1) :
    (finite x.neg (x.unf || y.unf) (addMag x.mags y.mags).1).IsResult := by
  obtain ⟨hmx, -, -, hzx⟩ := wf_finite hx hnx
  obtain ⟨hr, hc, hs⟩ := addMag_spec hmx hy
  have hc0 : (addMag x.mags y.mags).2 = 0 := by omega
  rw [hc0, Nat.mul_zero] at hs
  refine isResult_finite hr fun hneg hzero => ?_
  have hx0 : x.isZero = true := by
    rw [Mags.isZero_iff_toNat] at hzero
    rw [Value.isZero, Mags.isZero_iff_toNat]
    omega
  simp [hzx hneg hx0]

theorem isResult_add {x y : Value} (hx : x.wf = true) (hy : y.wf = true) : (x.add y).IsResult := by
  unfold Value.add
  split
  · exact isResult_nanValue
  next hnan =>
    obtain ⟨hnx, hny⟩ : x.nan = false ∧ y.nan = false := by simpa using hnan
    obtain ⟨hmx, -⟩ := wf_finite hx hnx
    obtain ⟨hmy, -⟩ := wf_finite hy hny
    have hzero := cmpMag_eq_zero_iff hmx hmy
    have hgt := cmpMag_pos_iff hmx hmy
    dsimp only
    split
    · exact isResult_overflowValue _ _
    · split
      · split
        · exact isResult_overflowValue _ _
        · exact isResult_addMag hx hnx hmy ‹_›
      · split
        · exact isResult_zeroValue
        · split
          · exact isResult_subMag _ _ hmx hmy (hgt.mp ‹_›)
          · exact isResult_subMag _ _ hmy hmx (by omega)

theorem isResult_sub {x y : Value} (hx : x.wf = true) (hy : y.wf = true) : (x.sub y).IsResult :=
  isResult_add hx (isResult_negate hy).wf

/-! ### MUL (42_mul.md) and DIV (43_div.md)

Their limbs come from the product's slots or from `limbs`, so these results are well-formed whatever the operands. -/

theorem isResult_mul (sw : Switches) (x y : Value) : (x.mul sw y).IsResult := by
  obtain ⟨-, hslot⟩ := product_slotsInRange x.mags y.mags
  unfold Value.mul
  generalize product x.mags y.mags = acc at hslot ⊢
  split
  · exact isResult_nanValue
  · dsimp only
    split
    · exact isResult_overflowValue _ _
    · split
      · exact isResult_overflowValue _ _
      · exact isResult_withSign _ _ ((Mags.inRange_iff _).mpr
          ⟨hslot 2 (by decide) (by decide), hslot 3 (by decide) (by decide), hslot 4 (by decide) (by decide),
            hslot 5 (by decide) (by decide), hslot 6 (by decide) (by decide), hslot 7 (by decide) (by decide)⟩)

theorem inRange_quotient {a b q : Mags} {cut : Bool} (h : quotient a b = some (q, cut)) : q.inRange = true := by
  simp only [quotient] at h
  split at h
  · cases h
  · cases h
    exact inRange_limbs _

theorem isResult_div (x y : Value) : (x.div y).IsResult := by
  unfold Value.div
  split
  · exact isResult_nanValue
  · dsimp only
    split
    · exact isResult_overflowValue _ _
    · split
      · exact isResult_withSign _ _ inRange_zeroMags
      · split
        · exact isResult_overflowValue _ _
        next hq => exact isResult_withSign _ _ (inRange_quotient hq)

/-! ### ROUND (44_round.md) and the composites (45_divrem_quanta.md) -/

theorem isResult_round (sw : Switches) {x : Value} (hx : x.wf = true) (places : Int) (mode : Mode) :
    (x.round sw places mode).IsResult := by
  unfold Value.round
  split
  · exact isResult_nanValue
  next hn =>
    obtain ⟨hm, -⟩ := wf_finite hx (by simpa using hn)
    dsimp only
    split
    · exact isResult_overflowValue _ _
    · split
      · exact isResult_withSign _ _ inRange_zeroMags
      · split
        · exact isResult_nanValue
        · split
          · exact isResult_withSign _ _ hm
          · split
            · exact isResult_overflowValue _ _
            · exact isResult_withSign _ _ (inRange_roundMags sw hm (by omega) mode)

theorem isResult_divrem (sw : Switches) {x : Value} (hx : x.wf = true) (y : Value) :
    (x.divrem sw y).1.IsResult ∧ (x.divrem sw y).2.IsResult := by
  unfold Value.divrem
  dsimp only
  split
  · exact ⟨isResult_nanValue, isResult_nanValue⟩
  · exact ⟨isResult_round sw (isResult_div x y).wf _ _, isResult_sub hx (isResult_mul sw _ y).wf⟩

theorem isResult_quanta (sw : Switches) (x y : Value) (mode : Mode) : (x.quanta sw y mode).IsResult :=
  isResult_mul sw _ y

/-! ### NaN operands (R99, R100) -/

theorem negate_of_nan {x : Value} (h : x.nan = true) : x.negate = nanValue := if_pos h

theorem abs_of_nan {x : Value} (h : x.nan = true) : x.abs = nanValue := if_pos h

theorem round_of_nan (sw : Switches) {x : Value} (h : x.nan = true) (places : Int) (mode : Mode) :
    x.round sw places mode = nanValue := if_pos h

section
variable {x y : Value} (h : x.nan = true ∨ y.nan = true)
include h

theorem add_of_nan : x.add y = nanValue := if_pos (by simpa using h)

theorem sub_of_nan : x.sub y = nanValue :=
  add_of_nan (h.imp_right fun hy => by rw [negate_of_nan hy, nan_nanValue])

theorem mul_of_nan (sw : Switches) : x.mul sw y = nanValue := if_pos (by simpa using h)

theorem div_of_nan : x.div y = nanValue := if_pos (by simpa using .inl h)

theorem divrem_of_nan (sw : Switches) : x.divrem sw y = (nanValue, nanValue) := by
  simp [Value.divrem, div_of_nan h]

/-- The quotient is NaN, and ROUND and MUL hand it on. -/
theorem quanta_of_nan (sw : Switches) (mode : Mode) : x.quanta sw y mode = nanValue := by
  rw [Value.quanta, div_of_nan h, round_of_nan sw nan_nanValue]
  exact mul_of_nan (.inl nan_nanValue) sw

end

/-! ### The commands (30_encoding.md R76, R77) -/

theorem forall_reg_setReg {P : Value → Prop} {s : State} {rd : Reg} {v : Value} (hv : P v) :
    ∀ q ∈ [rd], P ((s.setReg rd v).reg q) := by
  simpa using hv

theorem forall_reg_setReg_eq {s : State} {rd : Reg} {v w : Value} (h : v = w) :
    ∀ q ∈ [rd], (s.setReg rd v).reg q = w :=
  forall_reg_setReg (P := (· = w)) h

/-- DIVREM's two destinations differ, so each keeps its own result. -/
theorem forall_reg_setReg_pair {P : Value → Prop} {s : State} {rd rr : Reg} {v w : Value} (hne : rd ≠ rr) (hv : P v)
    (hw : P w) : ∀ q ∈ [rd, rr], P (((s.setReg rd v).setReg rr w).reg q) := by
  simp [reg_setReg_ne _ _ hne, hv, hw]

/-- R97, R99: every value a command writes. -/
theorem isResult_afterCommand {i : Instr} {s : State} (hi : i.wf = true) (hs : SourcesWf i s) :
    ∀ q ∈ destsOf i, ((s.afterCommand i).reg q).IsResult := by
  cases i with
  | divrem rd rr a b =>
    obtain ⟨hquot, hrem⟩ := isResult_divrem switches (hs a (.head _)) (s.reg b)
    exact forall_reg_setReg_pair (by simpa [Instr.wf] using hi) hquot hrem
  | add rd a b => exact forall_reg_setReg (isResult_add (hs a (.head _)) (hs b (.tail _ (.head _))))
  | sub rd a b => exact forall_reg_setReg (isResult_sub (hs a (.head _)) (hs b (.tail _ (.head _))))
  | mul rd a b => exact forall_reg_setReg (isResult_mul switches _ _)
  | div rd a b => exact forall_reg_setReg (isResult_div _ _)
  | quanta rd a b mode => exact forall_reg_setReg (isResult_quanta switches _ _ mode)
  | round rd a places mode => exact forall_reg_setReg (isResult_round switches (hs a (.head _)) places mode)
  | neg rd a => exact forall_reg_setReg (isResult_negate (hs a (.head _)))
  | abs rd a => exact forall_reg_setReg (isResult_abs (hs a (.head _)))
  | cmp | eq => simp [destsOf]

theorem nan_of_exists_source {s : State} {a : Reg} (h : ∃ r ∈ [a], (s.reg r).nan = true) : (s.reg a).nan = true := by
  simpa using h

theorem nan_of_exists_sources {s : State} {a b : Reg} (h : ∃ r ∈ [a, b], (s.reg r).nan = true) :
    (s.reg a).nan = true ∨ (s.reg b).nan = true := by
  simpa using h

/-- R100: a NaN source, in each command that writes a register. -/
theorem reg_afterCommand_of_nan {i : Instr} {s : State} (hi : i.wf = true)
    (hn : ∃ r ∈ sourcesOf i, (s.reg r).nan = true) : ∀ q ∈ destsOf i, (s.afterCommand i).reg q = nanValue := by
  cases i with
  | divrem rd rr a b =>
    have hpair := divrem_of_nan (nan_of_exists_sources hn) switches
    exact forall_reg_setReg_pair (P := (· = nanValue)) (by simpa [Instr.wf] using hi) (by rw [hpair]) (by rw [hpair])
  | add rd a b => exact forall_reg_setReg_eq (add_of_nan (nan_of_exists_sources hn))
  | sub rd a b => exact forall_reg_setReg_eq (sub_of_nan (nan_of_exists_sources hn))
  | mul rd a b => exact forall_reg_setReg_eq (mul_of_nan (nan_of_exists_sources hn) switches)
  | div rd a b => exact forall_reg_setReg_eq (div_of_nan (nan_of_exists_sources hn))
  | quanta rd a b mode => exact forall_reg_setReg_eq (quanta_of_nan (nan_of_exists_sources hn) switches mode)
  | round rd a places mode => exact forall_reg_setReg_eq (round_of_nan switches (nan_of_exists_source hn) places mode)
  | neg rd a => exact forall_reg_setReg_eq (negate_of_nan (nan_of_exists_source hn))
  | abs rd a => exact forall_reg_setReg_eq (abs_of_nan (nan_of_exists_source hn))
  | cmp | eq => simp [destsOf]

/-- Settles O15: the sources are well-formed, so the command runs, and every value it writes is a result. -/
theorem commandsAreClosed : Obligations.CommandsAreClosed := by
  intro i s hi hs
  exact ⟨_, (exec_eq_next_iff hi).mpr ⟨hs, rfl⟩, fun q hq => (isResult_afterCommand hi hs q hq).clauses⟩

/-- Settles O20: the command runs, and each value function hands NaN on as `NAN`. -/
theorem nanSourceGivesCanonicalNan : Obligations.NanSourceGivesCanonicalNan := by
  intro i s hi hs hn
  exact ⟨_, (exec_eq_next_iff hi).mpr ⟨hs, rfl⟩, reg_afterCommand_of_nan hi hn⟩

end Sys2Proof.Machine
end

section
/-! The obligations of 41_add_sub.md. ADD on naturals is said once, for either sign of `y` (`Value.sumOnNat`); ADD takes
`y`'s own sign (`add_eq_sumOnNat`), SUB the one NEG gives it (`sub_eq_sumOnNat`), and the laws of R112 are read off
it. -/

namespace Sys2Proof.Machine

open Config

/-! ### The adder on naturals (40_value_primitives.md R93) -/

/-- AddMag carries out of limb 0 exactly when the sum does not fit six limbs. -/
theorem addMag_carry_iff {a b : Mags} (ha : a.inRange = true) (hb : b.inRange = true) :
    (addMag a b).2 = 1 ↔ a.toNat + b.toNat ≥ 10 ^ 54 := by
  obtain ⟨hr, hc, hs⟩ := addMag_spec ha hb
  have hz := Mags.toNat_lt hr
  simp only [capacity] at hs hz
  omega

theorem addMag_of_lt {a b : Mags} (ha : a.inRange = true) (hb : b.inRange = true)
    (h : a.toNat + b.toNat < 10 ^ 54) : (addMag a b).1 = limbs (a.toNat + b.toNat) := by
  obtain ⟨hr, hc, hs⟩ := addMag_spec ha hb
  rw [← not_le, ← ge_iff_le, ← addMag_carry_iff ha hb] at h
  rw [show (addMag a b).2 = 0 by omega, Nat.mul_zero, Nat.add_zero] at hs
  rw [← hs, limbs_toNat hr]

/-! ### Values and the numbers they denote (00_scope.md R10, R11; 10_state.md R23) -/

theorem toNat_mags (x : Value) : x.mags.toNat = x.toNat := rfl

theorem toNat_lt_of_wf {x : Value} (hx : x.wf = true) (hnan : x.nan = false) : x.toNat < 10 ^ 54 :=
  Mags.toNat_lt (wf_finite hx hnan).1

theorem toNat_mkValue (s u : Bool) {n : Nat} (h : n < 10 ^ 54) : (mkValue s u n).toNat = n := by
  rw [Value.toNat, mkValue, finite, mags_packValue _ _ _ _ (inRange_limbs n), toNat_limbs h]

/-- A value that is neither NaN nor overflowed is its sign, its underflow and its number. -/
theorem mkValue_record {x : Value} (hx : x.wf = true) (hnan : x.nan = false) (hovf : x.ovf = false) :
    mkValue x.neg x.unf x.toNat = x := by
  obtain ⟨hm, hres, -, -⟩ := wf_finite hx hnan
  have hrec := packValue_record hres
  rw [hnan, hovf] at hrec
  rw [mkValue, Value.toNat, limbs_toNat hm, finite, hrec]

/-- An overflowed value is its sign and its underflow. -/
theorem overflowValue_record {x : Value} (hx : x.wf = true) (hnan : x.nan = false) (hovf : x.ovf = true) :
    overflowValue x.neg x.unf = x := by
  obtain ⟨-, hres, hmax, -⟩ := wf_finite hx hnan
  have hrec := packValue_record hres
  rw [hnan, hovf, hmax hovf] at hrec
  rw [overflowValue, hrec]

@[simp] theorem neg_zeroValue : zeroValue.neg = false := by decide
@[simp] theorem nan_zeroValue : zeroValue.nan = false := by decide
@[simp] theorem ovf_zeroValue : zeroValue.ovf = false := by decide
@[simp] theorem unf_zeroValue : zeroValue.unf = false := by decide
@[simp] theorem toNat_zeroValue : zeroValue.toNat = 0 := by decide

@[simp] theorem unf_nanValue : nanValue.unf = false := by decide

@[simp] theorem ovf_overflowValue (s u : Bool) : (overflowValue s u).ovf = true := ovf_packValue _ _ _ _ _
@[simp] theorem unf_overflowValue (s u : Bool) : (overflowValue s u).unf = u := unf_packValue _ _ _ _ _
@[simp] theorem unf_mkValue (s u : Bool) (n : Nat) : (mkValue s u n).unf = u := unf_packValue _ _ _ _ _

/-- The integer with sign `s` and magnitude `n`. -/
def signedNat (s : Bool) (n : Nat) : Int := if s then -(n : Int) else n

@[simp] theorem signedNat_false (n : Nat) : signedNat false n = n := rfl
@[simp] theorem signedNat_true (n : Nat) : signedNat true n = -(n : Int) := rfl

@[simp] theorem signedNat_zero (s : Bool) : signedNat s 0 = 0 := by
  cases s <;> rfl

theorem signedNat_not (s : Bool) (n : Nat) : signedNat (!s) n = -signedNat s n := by
  cases s <;> simp

theorem signedNat_add (s : Bool) (a b : Nat) : signedNat s (a + b) = signedNat s a + signedNat s b := by
  cases s <;> simp; omega

theorem signedNat_sub {s t : Bool} (h : s ≠ t) {a b : Nat} (hle : b ≤ a) :
    signedNat s (a - b) = signedNat s a + signedNat t b := by
  rw [Bool.eq_not.mpr h.symm]
  cases s <;> simp <;> omega

theorem signed_eq (x : Value) : x.signed = signedNat x.neg x.toNat := rfl

theorem signed_mkValue (s u : Bool) {n : Nat} (h : n < 10 ^ 54) : (mkValue s u n).signed = signedNat s n := by
  rw [signed_eq, toNat_mkValue s u h, mkValue, finite, neg_packValue]

/-! ### ADD on naturals (41_add_sub.md R110) -/

/-- R110 with `N(x)` and `N(y)` for the limbs, and `s` in the place of `y`'s sign. -/
def Value.sumOnNat (x y : Value) (s : Bool) : Value :=
  let u := x.unf || y.unf
  if x.nan = true ∨ y.nan = true then nanValue
  else if x.ovf = true ∨ y.ovf = true then overflowValue (if x.neg = s then x.neg else x.neg || y.ovf) u
  else if x.neg = s then
    if x.toNat + y.toNat ≥ 10 ^ 54 then overflowValue x.neg u else mkValue x.neg u (x.toNat + y.toNat)
  else if x.toNat = y.toNat then zeroValue
  else if x.toNat > y.toNat then mkValue x.neg u (x.toNat - y.toNat)
  else mkValue s u (y.toNat - x.toNat)

theorem sumOnNat_of_nan {x y : Value} (h : x.nan = true ∨ y.nan = true) (s : Bool) : x.sumOnNat y s = nanValue :=
  if_pos h

/-- The limb-level units give the sum, the order and the difference of the numbers. -/
theorem add_eq_sumOnNat {x y : Value} (hx : x.wf = true) (hy : y.wf = true) : x.add y = x.sumOnNat y y.neg := by
  by_cases hnan : x.nan = true ∨ y.nan = true
  · rw [add_of_nan hnan, sumOnNat_of_nan hnan]
  obtain ⟨hnx, hny⟩ : x.nan = false ∧ y.nan = false := by simpa using hnan
  obtain ⟨hmx, -⟩ := wf_finite hx hnx
  obtain ⟨hmy, -⟩ := wf_finite hy hny
  simp only [Value.add, Value.sumOnNat, Bool.or_eq_true, if_neg hnan, addMag_carry_iff hmx hmy,
    cmpMag_eq_zero_iff hmx hmy, cmpMag_pos_iff hmx hmy, toNat_mags, gt_iff_lt]
  by_cases hovf : x.ovf = true ∨ y.ovf = true
  · rw [if_pos hovf, if_pos hovf]
  rw [if_neg hovf, if_neg hovf]
  split
  · split
    · rfl
    · rw [addMag_of_lt hmx hmy (not_le.mp ‹_›)]
      rfl
  · split
    · rfl
    · split
      · rw [subMag_of_le hmx hmy (le_of_lt ‹_›)]
        rfl
      · rw [subMag_of_le hmy hmx (not_lt.mp ‹_›)]
        rfl

theorem exec_add {rd a b : Reg} {s : State} (ha : (s.reg a).wf = true) (hb : (s.reg b).wf = true) :
    exec (.add rd a b) s = .next (s.setReg rd ((s.reg a).add (s.reg b))) :=
  withSources_next (fun x y => s.setReg rd (x.add y)) ha hb

/-- Settles O21: both sources are well-formed, so the command runs, and its limb-level sum is the one on naturals. -/
theorem addResult : Obligations.AddResult := by
  intro rd a b s ha hb
  rw [exec_add ha hb, add_eq_sumOnNat ha hb]
  rfl

/-! ### SUB on naturals (41_add_sub.md R111, 47_negate_abs.md R180) -/

/-- The sign of `NEG(y)` for a `y` that is not NaN: the other one, unless `y` is an exact zero. -/
def Value.negatedSign (y : Value) : Bool := if y.toNat = 0 ∧ y.unf = false then false else !y.neg

/-- NEG changes the sign alone: an overflowed value is no zero, so NEG's exact zero needs no test of overflow. -/
theorem negate_eq_setNeg {y : Value} (hy : y.wf = true) (hnan : y.nan = false) :
    y.negate = y.setNeg y.negatedSign := by
  obtain ⟨-, -, hmax, -⟩ := wf_finite hy hnan
  have hzero : (y.isZero && !y.unf && !y.ovf) = true ↔ y.toNat = 0 ∧ y.unf = false := by
    rw [Value.toNat, ← Mags.isZero_iff_toNat, Value.isZero]
    cases hovf : y.ovf with
    | false => simp
    | true => simp [hmax hovf]
  simp only [Value.negate, Value.negatedSign, hnan, hzero, Bool.false_eq_true, if_false]
  split <;> rfl

@[simp] theorem toNat_setNeg (y : Value) (b : Bool) : (y.setNeg b).toNat = y.toNat := by
  rw [Value.toNat, mags_setNeg, Value.toNat]

@[simp] theorem sumOnNat_setNeg (x y : Value) (b s : Bool) : x.sumOnNat (y.setNeg b) s = x.sumOnNat y s := by
  simp [Value.sumOnNat]

theorem sub_eq_sumOnNat {x y : Value} (hx : x.wf = true) (hy : y.wf = true) :
    x.sub y = x.sumOnNat y y.negatedSign := by
  cases hnan : y.nan with
  | true => rw [sub_of_nan (.inr hnan), sumOnNat_of_nan (.inr hnan)]
  | false =>
    rw [Value.sub, add_eq_sumOnNat hx (isResult_negate hy).wf, negate_eq_setNeg hy hnan, sumOnNat_setNeg, neg_setNeg]

theorem exec_sub {rd a b : Reg} {s : State} (ha : (s.reg a).wf = true) (hb : (s.reg b).wf = true) :
    exec (.sub rd a b) s = .next (s.setReg rd ((s.reg a).sub (s.reg b))) :=
  withSources_next (fun x y => s.setReg rd (x.sub y)) ha hb

/-- Settles O22: both sources are well-formed, so the command runs, and SUB adds `y` under the sign NEG gives it. -/
theorem subResult : Obligations.SubResult := by
  intro rd a b s ha hb
  rw [exec_sub ha hb, sub_eq_sumOnNat ha hb]
  rfl

/-! ### The laws (41_add_sub.md R112) -/

/-- Only the sign of an overflowed sum tells the operands apart (R110 line 5). -/
theorem sumOnNat_comm {x y : Value}
    (h : x.nan = true ∨ y.nan = true ∨ (x.ovf = false ∧ y.ovf = false) ∨ x.neg = y.neg) :
    x.sumOnNat y y.neg = y.sumOnNat x x.neg := by
  simp only [Value.sumOnNat, or_comm (a := y.nan = true), or_comm (a := y.ovf = true), Bool.or_comm y.unf,
    Nat.add_comm y.toNat, eq_comm (a := y.neg), eq_comm (a := y.toNat)]
  by_cases hnan : x.nan = true ∨ y.nan = true
  · rw [if_pos hnan, if_pos hnan]
  rw [if_neg hnan, if_neg hnan]
  by_cases hs : x.neg = y.neg
  · simp only [hs, if_true]
  · have hovf : ¬ (x.ovf = true ∨ y.ovf = true) := by simp_all
    simp only [if_neg hovf, if_neg hs]
    rcases Nat.lt_trichotomy x.toNat y.toNat with hlt | heq | hgt
    · rw [if_neg hlt.ne, if_neg hlt.ne, if_neg hlt.not_gt, if_pos hlt]
    · rw [if_pos heq, if_pos heq]
    · rw [if_neg hgt.ne', if_neg hgt.ne', if_pos hgt, if_neg hgt.not_gt]

/-- A well-formed negative zero is underflowed, so it is `~-0`. -/
theorem toNat_ne_zero_of_neg {x : Value} (hx : x.wf = true) (hnan : x.nan = false) (hovf : x.ovf = false)
    (hneg : x.neg = true) (hne : x ≠ mkValue true true 0) : x.toNat ≠ 0 := by
  intro h0
  obtain ⟨-, -, -, hzero⟩ := wf_finite hx hnan
  have hunf : x.unf = true := hzero hneg ((Mags.isZero_iff_toNat _).mpr h0)
  exact hne (by rw [← mkValue_record hx hnan hovf, hneg, hunf, h0])

/-- 0 is neutral but for `~-0`, whose sign differs from that of 0. -/
theorem add_zeroValue {x : Value} (hx : x.wf = true) (hnan : x.nan = false) (hne : x ≠ mkValue true true 0) :
    x.add zeroValue = x := by
  rw [add_eq_sumOnNat hx wf_zeroValue]
  cases hovf : x.ovf with
  | true =>
    simpa [Value.sumOnNat, hnan, hovf] using overflowValue_record hx hnan hovf
  | false =>
    have hlt := toNat_lt_of_wf hx hnan
    have hrec := mkValue_record hx hnan hovf
    cases hneg : x.neg with
    | false =>
      simpa [Value.sumOnNat, hnan, hovf, hneg, hlt.not_ge, -Nat.reducePow] using hrec
    | true =>
      have hpos := toNat_ne_zero_of_neg hx hnan hovf hneg hne
      simpa [Value.sumOnNat, hnan, hovf, hneg, hpos, Nat.pos_of_ne_zero hpos] using hrec

/-- A sum that is neither NaN nor overflowed is exact. -/
theorem signed_sumOnNat {x y : Value} (hx : x.wf = true) (hy : y.wf = true) {s : Bool}
    (hnan : (x.sumOnNat y s).nan = false) (hovf : (x.sumOnNat y s).ovf = false) :
    (x.sumOnNat y s).signed = x.signed + signedNat s y.toNat := by
  have hn : ¬ (x.nan = true ∨ y.nan = true) := fun h => by simp [sumOnNat_of_nan h] at hnan
  obtain ⟨hnx, hny⟩ : x.nan = false ∧ y.nan = false := by simpa using hn
  have ho : ¬ (x.ovf = true ∨ y.ovf = true) := fun h => by simp [Value.sumOnNat, hn, h] at hovf
  have hxlt := toNat_lt_of_wf hx hnx
  have hylt := toNat_lt_of_wf hy hny
  rw [signed_eq x]
  simp only [Value.sumOnNat, if_neg hn, if_neg ho] at hovf ⊢
  by_cases hs : x.neg = s
  · rw [if_pos hs] at hovf ⊢
    by_cases hfull : x.toNat + y.toNat ≥ 10 ^ 54
    · rw [if_pos hfull, ovf_overflowValue] at hovf
      cases hovf
    · rw [if_neg hfull, signed_mkValue _ _ (not_le.mp hfull), signedNat_add, hs]
  · rw [if_neg hs]
    rcases Nat.lt_trichotomy y.toNat x.toNat with hlt | heq | hgt
    · rw [if_neg hlt.ne', if_pos hlt, signed_mkValue _ _ ((Nat.sub_le _ _).trans_lt hxlt), signedNat_sub hs hlt.le]
    · rw [if_pos heq.symm, ← signedNat_sub hs heq.le, heq, Nat.sub_self, signedNat_zero, signed_eq, toNat_zeroValue,
        signedNat_zero]
    · rw [if_neg hgt.ne, if_neg hgt.not_gt, signed_mkValue _ _ ((Nat.sub_le _ _).trans_lt hylt),
        signedNat_sub (Ne.symm hs) hgt.le, add_comm]

theorem signed_add {x y : Value} (hx : x.wf = true) (hy : y.wf = true) (hnan : (x.add y).nan = false)
    (hovf : (x.add y).ovf = false) : (x.add y).signed = x.signed + y.signed := by
  rw [add_eq_sumOnNat hx hy] at hnan hovf ⊢
  exact signed_sumOnNat hx hy hnan hovf

/-- The exact zero whose sign NEG keeps is its own negative. -/
theorem signedNat_negatedSign (y : Value) : signedNat y.negatedSign y.toNat = -y.signed := by
  rw [Value.negatedSign, signed_eq]
  split
  next h =>
    obtain ⟨h0, -⟩ := h
    rw [h0, signedNat_zero, signedNat_zero, neg_zero]
  · exact signedNat_not _ _

theorem signed_sub {x y : Value} (hx : x.wf = true) (hy : y.wf = true) (hnan : (x.sub y).nan = false)
    (hovf : (x.sub y).ovf = false) : (x.sub y).signed = x.signed - y.signed := by
  rw [sub_eq_sumOnNat hx hy] at hnan hovf ⊢
  rw [signed_sumOnNat hx hy hnan hovf, signedNat_negatedSign, sub_eq_add_neg]

/-- Every result that has an underflow flag at all has the operands' flags joined. -/
theorem unf_sumOnNat {x y : Value} {s : Bool} (h : (x.sumOnNat y s).unf = true) : x.unf = true ∨ y.unf = true := by
  rw [← Bool.or_eq_true]
  simp only [Value.sumOnNat, apply_ite Value.unf, unf_nanValue, unf_zeroValue, unf_overflowValue, unf_mkValue] at h
  split_ifs at h <;> exact h

theorem Value.IsResult.not_neg_exact_zero {v : Value} (h : v.IsResult) :
    ¬ (v.neg = true ∧ v.toNat = 0 ∧ v.unf = false) := by
  obtain ⟨-, -, -, -, hzero, -⟩ := h.clauses
  exact hzero

/-- Settles O23: the laws of the sum on naturals, and R97 for the sign of an exact zero. -/
theorem addSubLaws : Obligations.AddSubLaws := by
  intro x y hx hy
  have hadd := add_eq_sumOnNat hx hy
  have hsub := sub_eq_sumOnNat hx hy
  refine ⟨fun h => ?_, add_zeroValue hx, signed_add hx hy, signed_sub hx hy, fun h => ?_, fun h => ?_,
    (isResult_add hx hy).not_neg_exact_zero, (isResult_sub hx hy).not_neg_exact_zero⟩
  · rw [hadd, add_eq_sumOnNat hy hx, sumOnNat_comm h]
  · exact unf_sumOnNat (hadd ▸ h)
  · exact unf_sumOnNat (hsub ▸ h)

end Sys2Proof.Machine
end

section
/-! The obligations of 42_mul.md. The schoolbook accumulator is the base-10^9 representation of the product
(`product_spec`), so each slot is a quotient of the product (`getD_product`); MUL on naturals is said once, for either
setting of `MUL_UNF_IN` (`Value.productOnNat`, `mul_eq_productOnNat`), and the laws of R124 and R122 are read off it. -/

namespace Sys2Proof.Machine

open Config

/-! ### The accumulator is the full product (42_mul.md R121) -/

/-- What the limb pair `(i, j)` adds to the accumulator's number: `a[i] * b[j]` at its weight (R123). -/
def partialProduct (a b : Mags) (ij : Nat × Nat) : Nat := a.get ij.1 * b.get ij.2 * radix ^ (10 - ij.1 - ij.2)

/-- Twelve limbs below the radix that denote `n`. -/
structure Represents (acc : List Nat) (n : Nat) : Prop where
  length : acc.length = 12
  slot_lt : ∀ k < 12, acc.getD k 0 < radix
  value : limbsValue acc = n

theorem represents_zero : Represents (List.replicate 12 0) 0 := ⟨rfl, by decide, by decide⟩

/-- Partial products in any order add up, as long as the whole sum fits twelve limbs. -/
theorem foldl_accStep_represents (a b : Mags) (l : List (Nat × Nat)) (hl : ∀ ij ∈ l, ij.1 < 6 ∧ ij.2 < 6)
    {acc : List Nat} {n : Nat} (h : Represents acc n) (hfit : n + (l.map (partialProduct a b)).sum < radix ^ 12) :
    Represents (l.foldl (accStep a b) acc) (n + (l.map (partialProduct a b)).sum) := by
  induction l generalizing acc n with
  | nil => exact h
  | cons ij l ih =>
    obtain ⟨⟨hi, hj⟩, hrest⟩ := List.forall_mem_cons.mp hl
    rw [List.map_cons, List.sum_cons, ← Nat.add_assoc] at hfit ⊢
    have hstep : limbsValue acc + partialProduct a b ij < radix ^ 12 := by
      rw [h.value]
      exact (Nat.le_add_right _ _).trans_lt hfit
    obtain ⟨hlen, hslots, hval⟩ := accStep_spec a b acc hi hj h.length h.slot_lt hstep
    exact ih hrest ⟨hlen, hslots, by rw [hval, h.value]; rfl⟩ hfit

/-- The six limbs at their weights. -/
theorem Mags.toNat_eq_sum (a : Mags) : a.toNat = ([5, 4, 3, 2, 1, 0].map fun i => a.get i * radix ^ (5 - i)).sum := by
  -- said for every radix, so that no power of 10^9 is ever multiplied out
  have hhorner (R : Nat) : ((((a.m0 * R + a.m1) * R + a.m2) * R + a.m3) * R + a.m4) * R + a.m5
      = ([5, 4, 3, 2, 1, 0].map fun i => a.get i * R ^ (5 - i)).sum := by
    simp only [Mags.get, List.map_cons, List.map_nil, List.sum_cons, List.sum_nil]
    ring
  exact hhorner radix

/-- The 36 partial products are the product, multiplied out row by row. -/
theorem sum_partialProduct (a b : Mags) : (limbPairs.map (partialProduct a b)).sum = a.toNat * b.toNat := by
  have hrow : ∀ i ∈ [5, 4, 3, 2, 1, 0], (([5, 4, 3, 2, 1, 0].map fun j => (i, j)).map (partialProduct a b)).sum
      = a.get i * radix ^ (5 - i) * b.toNat := by
    intro i hi
    rw [Mags.toNat_eq_sum b, ← List.sum_map_mul_left, List.map_map]
    refine congrArg List.sum (List.map_congr_left fun j hj => ?_)
    have hweight : 10 - i - j = (5 - i) + (5 - j) := by
      simp only [List.mem_cons, List.not_mem_nil, or_false] at hi hj
      omega
    simp only [Function.comp_apply, partialProduct, hweight, pow_add]
    ring
  rw [limbPairs, List.map_flatMap, List.flatMap_def, List.sum_flatten, List.map_map, Mags.toNat_eq_sum a,
    ← List.sum_map_mul_right]
  exact congrArg List.sum (List.map_congr_left hrow)

section
variable {a b : Mags} (ha : a.inRange = true) (hb : b.inRange = true)
include ha hb

/-- Two magnitudes below 10^54 have a product below 10^108. -/
theorem toNat_mul_lt : a.toNat * b.toNat < radix ^ 12 := by
  have hcap : radix ^ 12 = capacity * capacity := by norm_num
  rw [hcap]
  exact Nat.mul_lt_mul'' (Mags.toNat_lt ha) (Mags.toNat_lt hb)

theorem product_represents : Represents (product a b) (a.toNat * b.toNat) := by
  have hpairs : ∀ ij ∈ limbPairs, ij.1 < 6 ∧ ij.2 < 6 := by decide
  have h := foldl_accStep_represents a b limbPairs hpairs represents_zero
  rw [sum_partialProduct, Nat.zero_add] at h
  exact h (toNat_mul_lt ha hb)

end

theorem Represents.mem_lt {acc : List Nat} {n : Nat} (h : Represents acc n) : ∀ d ∈ acc, d < radix := by
  intro d hd
  obtain ⟨k, hk, rfl⟩ := List.getElem_of_mem hd
  have hslot := h.slot_lt k (h.length ▸ hk)
  rwa [List.getD_eq_getElem _ _ hk] at hslot

/-- Settles O24: the partial products add up to the product, and no step leaves the twelve slots. -/
theorem productIsFullProduct : Obligations.ProductIsFullProduct := by
  intro a b ha hb
  have h := product_represents ha hb
  exact ⟨h.length, h.mem_lt, h.value⟩

/-! ### The slots as quotients of the product (42_mul.md R120 lines 6, 8 and 9) -/

/-- A limb below the radix, among others below the radix, is a digit of the number. -/
theorem getD_eq_digit (l : List Nat) (h : ∀ d ∈ l, d < radix) {k : Nat} (hk : k < l.length) :
    l.getD k 0 = limbsValue l / radix ^ (l.length - 1 - k) % radix := by
  induction l generalizing k with
  | nil => simp at hk
  | cons d l ih =>
    obtain ⟨hd, hl⟩ := List.forall_mem_cons.mp h
    have hlow := limbsValue_lt l hl
    rw [limbsValue_cons, List.length_cons, Nat.add_sub_cancel]
    cases k with
    | zero =>
      rw [List.getD_cons_zero, Nat.sub_zero, Nat.add_comm, Nat.add_mul_div_right _ _ (by positivity),
        Nat.div_eq_of_lt hlow, Nat.zero_add, Nat.mod_eq_of_lt hd]
    | succ k =>
      have hk' : k < l.length := by simpa using hk
      -- the leading limb's weight is a multiple of the radix times this limb's weight
      have hweight : radix ^ l.length = radix ^ k * radix * radix ^ (l.length - 1 - k) := by
        rw [← pow_succ, ← pow_add]
        congr 1
        omega
      rw [List.getD_cons_succ, ih hl hk', hweight, Nat.sub_add_eq, Nat.sub_right_comm, Nat.add_comm, ← Nat.mul_assoc,
        Nat.add_mul_div_right _ _ (by positivity), ← Nat.mul_assoc, Nat.add_mul_mod_self_right]

section
variable {a b : Mags} (ha : a.inRange = true) (hb : b.inRange = true)
include ha hb

theorem getD_product {k : Nat} (hk : k < 12) :
    (product a b).getD k 0 = a.toNat * b.toNat / radix ^ (11 - k) % radix := by
  have h := product_represents ha hb
  rw [getD_eq_digit _ h.mem_lt (h.length ▸ hk), h.length, h.value]

/-- R120 line 6: slots 0 and 1 hold what does not fit eighteen integer digits. -/
theorem product_overflow_iff :
    ((product a b).getD 0 0 ≠ 0 ∨ (product a b).getD 1 0 ≠ 0) ↔ a.toNat * b.toNat / 10 ^ 90 ≠ 0 := by
  have hlt := toNat_mul_lt ha hb
  rw [getD_product ha hb (by decide), getD_product ha hb (by decide)]
  generalize a.toNat * b.toNat = P at hlt ⊢
  simp only [radix] at hlt ⊢
  omega

/-- R120 line 8: slots 8 to 11 hold the digits below 10^-36. -/
theorem product_lost :
    (decide ((product a b).getD 8 0 ≠ 0) || decide ((product a b).getD 9 0 ≠ 0) ||
      decide ((product a b).getD 10 0 ≠ 0) || decide ((product a b).getD 11 0 ≠ 0))
      = decide (a.toNat * b.toNat % 10 ^ 36 ≠ 0) := by
  rw [getD_product ha hb (by decide), getD_product ha hb (by decide), getD_product ha hb (by decide),
    getD_product ha hb (by decide), ← Bool.decide_or, ← Bool.decide_or, ← Bool.decide_or, decide_eq_decide]
  generalize a.toNat * b.toNat = P
  simp only [radix]
  omega

/-- R120 line 9: slots 2 to 7 are the limbs of the truncated product. -/
theorem product_middle :
    (⟨(product a b).getD 2 0, (product a b).getD 3 0, (product a b).getD 4 0, (product a b).getD 5 0,
      (product a b).getD 6 0, (product a b).getD 7 0⟩ : Mags) = limbs (a.toNat * b.toNat / 10 ^ 36) := by
  simp only [getD_product ha hb (by decide : 2 < 12), getD_product ha hb (by decide : 3 < 12),
    getD_product ha hb (by decide : 4 < 12), getD_product ha hb (by decide : 5 < 12),
    getD_product ha hb (by decide : 6 < 12), getD_product ha hb (by decide : 7 < 12), limbs, Nat.div_div_eq_div_mul]
  rfl

end

/-! ### MUL on naturals (42_mul.md R120) -/

/-- R120 with `N(x)` and `N(y)` for the limbs, and `uin` for the underflow taken over from the operands (line 3). -/
def Value.productOnNat (x y : Value) (uin : Bool) : Value :=
  let sign := Bool.xor x.neg y.neg
  let P := x.toNat * y.toNat
  let u := uin || decide (P % 10 ^ 36 ≠ 0)
  if x.nan = true ∨ y.nan = true then nanValue
  else if y.toNat ≠ 0 ∧ (x.ovf = true ∨ y.ovf = true) then overflowValue sign uin
  else if P / 10 ^ 90 ≠ 0 then overflowValue sign uin
  else mkValue (sign && (decide (P / 10 ^ 36 ≠ 0) || u)) u (P / 10 ^ 36)

theorem productOnNat_of_nan {x y : Value} (h : x.nan = true ∨ y.nan = true) (uin : Bool) :
    x.productOnNat y uin = nanValue := if_pos h

theorem isZero_eq (x : Value) : x.isZero = decide (x.toNat = 0) := by
  rw [Bool.eq_iff_iff, decide_eq_true_iff]
  exact Mags.isZero_iff_toNat _

/-- The last step of MUL on the limbs of a number below 10^54: an exact zero takes no sign (R92). -/
theorem withSign_limbs (u s : Bool) {n : Nat} (h : n < 10 ^ 54) :
    withSign (finite false u (limbs n)) s = mkValue (s && (decide (n ≠ 0) || u)) u n := by
  have hzero : (limbs n).isZero = decide (n = 0) := by
    rw [Bool.eq_iff_iff, decide_eq_true_iff, Mags.isZero_iff_toNat, toNat_limbs h]
  rw [withSign_finite u s (inRange_limbs n), hzero, ← decide_not]
  rfl

/-- The slots that MUL tests and copies are the overflow, the lost digits and the limbs of the truncated product. -/
theorem mul_eq_productOnNat (sw : Switches) {x y : Value} (hx : x.wf = true) (hy : y.wf = true) :
    x.mul sw y = x.productOnNat y (sw.mulUnfIn && (x.unf || y.unf)) := by
  by_cases hnan : x.nan = true ∨ y.nan = true
  · rw [mul_of_nan hnan, productOnNat_of_nan hnan]
  obtain ⟨hnx, hny⟩ : x.nan = false ∧ y.nan = false := by simpa using hnan
  obtain ⟨hmx, -⟩ := wf_finite hx hnx
  obtain ⟨hmy, -⟩ := wf_finite hy hny
  simp only [Value.mul, Value.productOnNat, Bool.or_eq_true, Bool.and_eq_true, Bool.not_eq_true',
    decide_eq_true_eq, decide_eq_false_iff_not, isZero_eq, if_neg hnan, product_overflow_iff hmx hmy,
    product_lost hmx hmy, product_middle hmx hmy, toNat_mags]
  by_cases hovf : y.toNat ≠ 0 ∧ (x.ovf = true ∨ y.ovf = true)
  · rw [if_pos hovf, if_pos hovf]
  rw [if_neg hovf, if_neg hovf]
  split
  · rfl
  next hfit =>
    have htrunc : x.toNat * y.toNat / 10 ^ 36 < 10 ^ 54 := by omega
    exact withSign_limbs _ _ htrunc

/-- With the switch off, as the spec sets it (R8), MUL takes over no underflow. -/
theorem mul_eq_productOnNat_false {sw : Switches} (hsw : sw.mulUnfIn = false) {x y : Value} (hx : x.wf = true)
    (hy : y.wf = true) : x.mul sw y = x.productOnNat y false := by
  rw [mul_eq_productOnNat sw hx hy, hsw, Bool.false_and]

theorem exec_mul {rd a b : Reg} {s : State} (ha : (s.reg a).wf = true) (hb : (s.reg b).wf = true) :
    exec (.mul rd a b) s = .next (s.setReg rd ((s.reg a).mul switches (s.reg b))) :=
  withSources_next (fun x y => s.setReg rd (x.mul switches y)) ha hb

/-- Settles O25: both sources are well-formed, so the command runs, and MUL on naturals takes over no underflow. -/
theorem mulResult : Obligations.MulResult := by
  intro rd a b s ha hb
  rw [exec_mul ha hb, mul_eq_productOnNat_false rfl ha hb]
  simp only [Value.productOnNat, Bool.false_or]

/-! ### The laws (42_mul.md R124) -/

/-- Only line 4 of R120 tells the operands apart: it tests `y` alone for zero. -/
theorem productOnNat_comm {x y : Value} (uin : Bool)
    (h : x.nan = true ∨ y.nan = true ∨ (x.ovf = false ∧ y.ovf = false) ∨ (x.toNat ≠ 0 ∧ y.toNat ≠ 0)) :
    x.productOnNat y uin = y.productOnNat x uin := by
  by_cases hnan : x.nan = true ∨ y.nan = true
  · rw [productOnNat_of_nan hnan, productOnNat_of_nan hnan.symm]
  have hovf : (y.toNat ≠ 0 ∧ (x.ovf = true ∨ y.ovf = true)) ↔ (x.toNat ≠ 0 ∧ (y.ovf = true ∨ x.ovf = true)) := by
    rcases h with hx | hy | ⟨hx, hy⟩ | ⟨hx, hy⟩
    · exact absurd (.inl hx) hnan
    · exact absurd (.inr hy) hnan
    · simp [hx, hy]
    · simp [hx, hy, or_comm]
  simp only [Value.productOnNat, hovf, or_comm (a := y.nan = true), Bool.xor_comm y.neg, Nat.mul_comm y.toNat]

@[simp] theorem neg_mkValue (s u : Bool) (n : Nat) : (mkValue s u n).neg = s := neg_packValue _ _ _ _ _
@[simp] theorem nan_mkValue (s u : Bool) (n : Nat) : (mkValue s u n).nan = false := nan_packValue _ _ _ _ _
@[simp] theorem ovf_mkValue (s u : Bool) (n : Nat) : (mkValue s u n).ovf = false := ovf_packValue _ _ _ _ _
@[simp] theorem nan_overflowValue (s u : Bool) : (overflowValue s u).nan = false := nan_packValue _ _ _ _ _

@[simp] theorem mkValue_zero : mkValue false false 0 = zeroValue := by decide

/-- 1 hands on the overflow and the number of the other operand, but not its underflow (R122). -/
theorem mul_one_eq {x : Value} (hx : x.wf = true) (hnan : x.nan = false) :
    x.mul {} (mkValue false false (10 ^ 36))
      = if x.ovf = true then overflowValue x.neg false else mkValue (x.neg && decide (x.toNat ≠ 0)) false x.toNat := by
  have hlt := toNat_lt_of_wf hx hnan
  have hone : (mkValue false false (10 ^ 36)).toNat = 10 ^ 36 := toNat_mkValue _ _ (by norm_num)
  have hquot : x.toNat * 10 ^ 36 / 10 ^ 90 = 0 := by omega
  have hexact : x.toNat * 10 ^ 36 % 10 ^ 36 = 0 := Nat.mul_mod_left _ _
  have htrunc : x.toNat * 10 ^ 36 / 10 ^ 36 = x.toNat := Nat.mul_div_cancel _ (by positivity)
  rw [mul_eq_productOnNat_false rfl hx (by decide)]
  simp [Value.productOnNat, hone, hquot, hexact, htrunc, hnan, -Nat.reducePow]

/-- A well-formed exact number is negative only when it is not 0, so its sign outlives MUL's last step. -/
theorem mul_one_of_exact {x : Value} (hx : x.wf = true) (hnan : x.nan = false) (hunf : x.unf = false) :
    x.mul {} (mkValue false false (10 ^ 36)) = x := by
  rw [mul_one_eq hx hnan]
  cases hovf : x.ovf with
  | true =>
    rw [if_pos rfl, ← hunf, overflowValue_record hx hnan hovf]
  | false =>
    have hsign : (x.neg && decide (x.toNat ≠ 0)) = x.neg := by
      cases hneg : x.neg with
      | false => rfl
      | true =>
        have hne : x ≠ mkValue true true 0 := fun h => by simp [h] at hunf
        simpa using toNat_ne_zero_of_neg hx hnan hovf hneg hne
    rw [if_neg Bool.false_ne_true, hsign, ← hunf, mkValue_record hx hnan hovf]

/-- An underflowed operand loses its underflow, and a zero with it its sign. -/
theorem mul_one_eq_clear_unf {x : Value} (hx : x.wf = true) (hnan : x.nan = false) :
    x.mul {} (mkValue false false (10 ^ 36))
      = if x.toNat = 0 then zeroValue else packValue x.neg false x.ovf false x.mags := by
  obtain ⟨hm, -, hmax, -⟩ := wf_finite hx hnan
  rw [mul_one_eq hx hnan]
  cases hovf : x.ovf with
  | true =>
    have hpos : maxMags.toNat ≠ 0 := by decide
    rw [if_pos rfl, Value.toNat, hmax hovf, if_neg hpos, overflowValue]
  | false =>
    rw [if_neg Bool.false_ne_true]
    split
    next h0 => simp [h0]
    next h0 =>
      rw [decide_eq_true h0, Bool.and_true, mkValue, Value.toNat, limbs_toNat hm, finite]

/-- Without an operand's or its own overflow, the number is the truncated product. -/
theorem productOnNat_magnitude {x y : Value} (uin : Bool) (hnx : x.nan = false) (hny : y.nan = false)
    (hox : x.ovf = false) (hoy : y.ovf = false) (hfit : x.toNat * y.toNat / 10 ^ 36 < 10 ^ 54) :
    (x.productOnNat y uin).ovf = false ∧ (x.productOnNat y uin).toNat = x.toNat * y.toNat / 10 ^ 36 := by
  have hquot : x.toNat * y.toNat / 10 ^ 90 = 0 := by omega
  simp only [Value.productOnNat, hnx, hny, hox, hoy, hquot, Bool.false_eq_true, or_self, and_false, ne_eq,
    not_true_eq_false, if_false, ovf_mkValue, toNat_mkValue _ _ hfit, and_self]

/-- Settles O26: the laws of the product on naturals, and R97 for the sign of an exact zero. -/
theorem mulLaws : Obligations.MulLaws := by
  intro x y hx hy
  have hxy : x.mul {} y = x.productOnNat y false := mul_eq_productOnNat_false rfl hx hy
  have hyx : y.mul {} x = y.productOnNat x false := mul_eq_productOnNat_false rfl hy hx
  refine ⟨fun h => ?_, mul_one_of_exact hx, fun hnan _ => mul_one_eq_clear_unf hx hnan,
    fun hnx hny hox hoy hfit => ?_, (isResult_mul {} x y).not_neg_exact_zero⟩
  · rw [hxy, hyx, productOnNat_comm false h]
  · rw [hxy]
    exact productOnNat_magnitude false hnx hny hox hoy hfit

/-! ### The switch `MUL_UNF_IN` (42_mul.md R122) -/

@[simp] theorem mags_mkValue (s u : Bool) (n : Nat) : (mkValue s u n).mags = limbs n :=
  mags_packValue _ _ _ _ (inRange_limbs n)

@[simp] theorem mags_overflowValue (s u : Bool) : (overflowValue s u).mags = maxMags :=
  mags_packValue _ _ _ _ inRange_maxMags

/-- The underflow taken over reaches the result's underflow and nothing else but the sign of a zero. -/
theorem productOnNat_uin {x y : Value} (uin : Bool) (hnx : x.nan = false) (hny : y.nan = false) :
    (x.productOnNat y uin).unf = ((x.productOnNat y false).unf || uin) ∧
      (x.productOnNat y uin).nan = (x.productOnNat y false).nan ∧
      (x.productOnNat y uin).ovf = (x.productOnNat y false).ovf ∧
      (x.productOnNat y uin).mags = (x.productOnNat y false).mags := by
  have hnan : ¬ (x.nan = true ∨ y.nan = true) := by simp [hnx, hny]
  simp only [Value.productOnNat, if_neg hnan]
  split
  · simp
  · split
    · simp
    · simp [Bool.or_comm]

/-- Settles O27: the switch takes over the operands' joined underflow, and that is all MUL does with it. -/
theorem mulUnderflowSwitch : Obligations.MulUnderflowSwitch := by
  intro x y hx hy hnx hny
  have hoff : x.mul {} y = x.productOnNat y false := mul_eq_productOnNat_false rfl hx hy
  have hon : x.mul { mulUnfIn := true } y = x.productOnNat y (x.unf || y.unf) := mul_eq_productOnNat _ hx hy
  simp only [hoff, hon, Bool.or_assoc]
  exact productOnNat_uin _ hnx hny

end Sys2Proof.Machine
end

section
/-! DIV on naturals (43_div.md R130), over the quotient definition R131. -/

namespace Sys2Proof.Machine

open Config

/-! ### The quotient definition (R131) -/

theorem quotient_eq_none {a b : Mags} (h : a.toNat * 10 ^ 36 / b.toNat ≥ 10 ^ 54) : quotient a b = none :=
  if_pos h

theorem quotient_eq_some {a b : Mags} (h : a.toNat * 10 ^ 36 / b.toNat < 10 ^ 54) :
    quotient a b = some (limbs (a.toNat * 10 ^ 36 / b.toNat), decide (a.toNat * 10 ^ 36 % b.toNat ≠ 0)) :=
  if_neg (not_le.mpr h)

/-! ### DIV on naturals (R130) -/

/-- R130 with `N(x)` and `N(y)` for the limbs. -/
def Value.quotientOnNat (x y : Value) : Value :=
  let sign := Bool.xor x.neg y.neg
  let uin := x.unf || y.unf
  let Q := x.toNat * 10 ^ 36 / y.toNat
  let u := uin || decide (x.toNat * 10 ^ 36 % y.toNat ≠ 0)
  if x.nan = true ∨ y.nan = true ∨ y.toNat = 0 then nanValue
  else if x.ovf = true ∨ y.ovf = true then overflowValue sign uin
  else if Q ≥ 10 ^ 54 then overflowValue sign uin
  else mkValue (sign && (decide (Q ≠ 0) || u)) u Q

/-- R130 lines 5 to 7: a zero dividend has the quotient 0 and cuts nothing off, so it takes the same last step as any
quotient that fits. -/
theorem div_eq_quotientOnNat (x y : Value) : x.div y = x.quotientOnNat y := by
  simp only [Value.div, Value.quotientOnNat, Bool.or_eq_true, isZero_eq, decide_eq_true_eq, or_assoc]
  by_cases hnan : x.nan = true ∨ y.nan = true ∨ y.toNat = 0
  · rw [if_pos hnan, if_pos hnan]
  by_cases hovf : x.ovf = true ∨ y.ovf = true
  · rw [if_neg hnan, if_neg hnan, if_pos hovf, if_pos hovf]
  rw [if_neg hnan, if_neg hnan, if_neg hovf, if_neg hovf]
  by_cases hx : x.toNat = 0
  · rw [if_pos hx, hx, Nat.zero_mul, Nat.zero_div, Nat.zero_mod, ← limbs_zero, withSign_limbs _ _ (by decide)]
    simp
  rw [if_neg hx]
  by_cases hfit : x.toNat * 10 ^ 36 / y.toNat ≥ 10 ^ 54
  · rw [quotient_eq_none hfit, if_pos hfit]
  · rw [quotient_eq_some (not_le.mp hfit), if_neg hfit]
    exact withSign_limbs _ _ (not_le.mp hfit)

theorem exec_div {rd a b : Reg} {s : State} (ha : (s.reg a).wf = true) (hb : (s.reg b).wf = true) :
    exec (.div rd a b) s = .next (s.setReg rd ((s.reg a).div (s.reg b))) :=
  withSources_next (fun x y => s.setReg rd (x.div y)) ha hb

/-- Settles O28: both sources are well-formed, so the command runs, and its quotient is the one on naturals. -/
theorem divResult : Obligations.DivResult := by
  intro rd a b s ha hb
  rw [exec_div ha hb, div_eq_quotientOnNat]
  rfl

end Sys2Proof.Machine
end

section
/-! The limb lists of the long-division engine (43_div.md R134, R136): scaling, subtraction, the estimate, and the loop
that settles one digit. -/

namespace Sys2Proof.Machine

open Config

/-! ### Limb lists as numbers -/

theorem limbsValue_append (l m : List Nat) : limbsValue (l ++ m) = limbsValue l * radix ^ m.length + limbsValue m := by
  rw [limbsValue, List.foldl_append, limbsValue_foldl]
  rfl

@[simp] theorem limbsValue_replicate_zero (n : Nat) : limbsValue (List.replicate n 0) = 0 := by
  induction n with
  | zero => rfl
  | succ n ih => rw [List.replicate_succ, limbsValue_cons, ih, Nat.zero_mul]

/-- The engine's test for exhaustion (R138). -/
theorem all_zero_iff (l : List Nat) : l.all (· == 0) = true ↔ limbsValue l = 0 := by
  induction l with
  | nil => simp
  | cons d l ih => simp [limbsValue_cons, ih]

/-- A list whose number has no digit at the leading limb's place has a zero there. -/
theorem limbsValue_tail {l : List Nat} {n : Nat} (hlen : l.length = n + 1) (hlt : limbsValue l < radix ^ n) :
    limbsValue l.tail = limbsValue l := by
  cases l with
  | nil => simp at hlen
  | cons d l =>
    obtain rfl : l.length = n := by simpa using hlen
    have hd : d = 0 := by
      by_contra hd
      rw [limbsValue_cons] at hlt
      have := Nat.le_mul_of_pos_left (radix ^ l.length) (Nat.pos_of_ne_zero hd)
      omega
    simp [limbsValue_cons, hd]

/-! ### Scaling (R134, R136) -/

/-- The limbs of `f * l`, with the carry as one limb more. -/
theorem scaleLimbs_spec (f : Nat) (l : List Nat) :
    (scaleLimbs f l).2.length = l.length ∧ (∀ d ∈ (scaleLimbs f l).2, d < radix) ∧
      limbsValue ((scaleLimbs f l).1 :: (scaleLimbs f l).2) = f * limbsValue l := by
  induction l with
  | nil => simp [scaleLimbs, limbsValue_cons]
  | cons a l ih =>
    obtain ⟨hlen, hlt, hval⟩ := ih
    simp only [scaleLimbs, limbsValue_cons, List.length_cons, hlen, List.forall_mem_cons] at hval ⊢
    refine ⟨trivial, ⟨Nat.mod_lt _ (by decide), hlt⟩, ?_⟩
    have hdiv := Nat.div_add_mod (f * a + (scaleLimbs f l).1) radix
    generalize (f * a + (scaleLimbs f l).1) / radix = q at hdiv ⊢
    generalize (f * a + (scaleLimbs f l).1) % radix = r at hdiv ⊢
    calc q * radix ^ (l.length + 1) + (r * radix ^ l.length + limbsValue (scaleLimbs f l).2)
        = (radix * q + r) * radix ^ l.length + limbsValue (scaleLimbs f l).2 := by rw [pow_succ]; ring
      _ = f * (a * radix ^ l.length) + ((scaleLimbs f l).1 * radix ^ l.length + limbsValue (scaleLimbs f l).2) := by
          rw [hdiv]; ring
      _ = f * (a * radix ^ l.length + limbsValue l) := by rw [hval]; ring

/-- A scaled number that fits leaves no carry. -/
theorem scaleLimbs_carry_eq_zero {f : Nat} {l : List Nat} (h : f * limbsValue l < radix ^ l.length) :
    (scaleLimbs f l).1 = 0 ∧ limbsValue (scaleLimbs f l).2 = f * limbsValue l := by
  obtain ⟨hlen, -, hval⟩ := scaleLimbs_spec f l
  rw [← hval] at h
  have htail := limbsValue_tail (by rw [List.length_cons, hlen]) h
  rw [List.tail_cons] at htail
  refine ⟨?_, htail.trans hval⟩
  rw [limbsValue_cons] at htail
  have hpos : 0 < radix ^ (scaleLimbs f l).2.length := by positivity
  exact (Nat.mul_eq_zero.mp (by omega)).resolve_right hpos.ne'

/-- A factor below the radix carries out less than the radix. -/
theorem scaleLimbs_carry_lt {f : Nat} (hf : f < radix) {l : List Nat} (hl : ∀ d ∈ l, d < radix) :
    (scaleLimbs f l).1 < radix := by
  obtain ⟨hlen, -, hval⟩ := scaleLimbs_spec f l
  rw [limbsValue_cons, hlen] at hval
  have hbound : f * limbsValue l < radix * radix ^ l.length := Nat.mul_lt_mul'' hf (limbsValue_lt l hl)
  exact Nat.lt_of_mul_lt_mul_right (lt_of_le_of_lt (by omega) hbound)

/-! ### Subtracting a multiple of the denominator from the window (R136) -/

theorem subLimbs_spec (a b : List Nat) (hlen : a.length = b.length) (ha : ∀ d ∈ a, d < radix)
    (hb : ∀ d ∈ b, d < radix) :
    (subLimbs a b).2.length = a.length ∧ (∀ d ∈ (subLimbs a b).2, d < radix) ∧ (subLimbs a b).1 ≤ 1 ∧
      limbsValue (subLimbs a b).2 + limbsValue b = limbsValue a + radix ^ a.length * (subLimbs a b).1 := by
  induction a generalizing b with
  | nil =>
    obtain rfl : b = [] := by simpa [eq_comm] using hlen
    simp [subLimbs]
  | cons x a ih =>
    cases b with
    | nil => simp at hlen
    | cons y b =>
      obtain ⟨hx, ha⟩ := List.forall_mem_cons.mp ha
      obtain ⟨hy, hb⟩ := List.forall_mem_cons.mp hb
      have hlen' : a.length = b.length := by simpa using hlen
      obtain ⟨hlen'', hlt, hborrow, hval⟩ := ih b hlen' ha hb
      obtain ⟨hcell, hborrow', hsub⟩ := subCell_spec hx hy hborrow
      simp only [subLimbs, limbsValue_cons, List.length_cons, List.forall_mem_cons, hlen'', ← hlen'] at hval ⊢
      refine ⟨trivial, ⟨hcell, hlt⟩, hborrow', ?_⟩
      rw [pow_succ]
      linear_combination hval + radix ^ a.length * hsub

/-- R136: without a borrow, the window less `q` times the denominator; with one, the window is the smaller. -/
theorem windowSub_spec {win V : List Nat} (hlen : win.length = V.length + 1) (hwin : ∀ d ∈ win, d < radix)
    (hV : ∀ d ∈ V, d < radix) {q : Nat} (hq : q < radix) :
    (windowSub win V q).2.length = win.length ∧ (∀ d ∈ (windowSub win V q).2, d < radix) ∧
      ((windowSub win V q).1 = 0 ↔ q * limbsValue V ≤ limbsValue win) ∧
      (q * limbsValue V ≤ limbsValue win →
        limbsValue (windowSub win V q).2 = limbsValue win - q * limbsValue V) := by
  obtain ⟨hscale, hlt, hval⟩ := scaleLimbs_spec q V
  obtain ⟨hlen', hlt', hborrow, hsub⟩ := subLimbs_spec win ((scaleLimbs q V).1 :: (scaleLimbs q V).2)
    (by rw [hlen, List.length_cons, hscale]) hwin (List.forall_mem_cons.mpr ⟨scaleLimbs_carry_lt hq hV, hlt⟩)
  have hbound := limbsValue_lt _ hlt'
  rw [hval] at hsub
  rw [hlen'] at hbound
  refine ⟨hlen', hlt', ?_⟩
  simp only [windowSub]
  generalize subLimbs win ((scaleLimbs q V).1 :: (scaleLimbs q V).2) = r at *
  obtain h0 | h1 : r.1 = 0 ∨ r.1 = 1 := by omega
  · rw [h0] at hsub ⊢
    omega
  · rw [h1] at hsub ⊢
    omega

/-! ### One digit (R136) -/

/-- From any estimate that is not too small, decrement and retry reaches the true digit. -/
theorem settleDigit_eq {win V : List Nat} (hlen : win.length = V.length + 1) (hwin : ∀ d ∈ win, d < radix)
    (hV : ∀ d ∈ V, d < radix) (hpos : 0 < limbsValue V) {q : Nat} (hq : q < radix)
    (hle : limbsValue win / limbsValue V ≤ q) :
    settleDigit win V q
      = (limbsValue win / limbsValue V, (windowSub win V (limbsValue win / limbsValue V)).2) := by
  induction q with
  | zero => rw [Nat.le_zero.mp hle, settleDigit]
  | succ q ih =>
    obtain ⟨-, -, hborrow, -⟩ := windowSub_spec hlen hwin hV hq
    rw [← Nat.le_div_iff_mul_le hpos] at hborrow
    rw [settleDigit]
    split
    next h0 => rw [le_antisymm hle (hborrow.mp h0)]
    next h0 =>
      rw [hborrow] at h0
      exact ih (by omega) (by omega)

/-- Low parts below the unit `P` do not reach the quotient of the high parts. -/
theorem mul_le_of_mul_add_le {q x y P top low : Nat} (hlow : low < P) (h : q * (y * P + x) ≤ top * P + low) :
    q * y ≤ top := by
  have hP : q * y * P < (top + 1) * P :=
    calc q * y * P ≤ q * (y * P + x) := by rw [Nat.mul_assoc]; exact Nat.mul_le_mul_left _ (Nat.le_add_right _ _)
      _ ≤ top * P + low := h
      _ < (top + 1) * P := by rw [Nat.add_mul, Nat.one_mul]; omega
  exact Nat.le_of_lt_succ (Nat.lt_of_mul_lt_mul_right hP)

/-- The estimate is never smaller than the true digit: it divides at least as much by no more. -/
theorem digit_le_estimate {win V : List Nat} (hlen : win.length = V.length + 1) (hwin : ∀ d ∈ win, d < radix)
    (hlead : V.getD 0 0 ≠ 0) (hlt : limbsValue win < radix * limbsValue V) :
    limbsValue win / limbsValue V ≤ estimate win V := by
  refine le_min (Nat.le_sub_one_of_lt (Nat.div_lt_of_lt_mul (by rwa [Nat.mul_comm]))) ?_
  have hq := Nat.div_mul_le_self (limbsValue win) (limbsValue V)
  generalize limbsValue win / limbsValue V = q at hq
  rw [Nat.le_div_iff_mul_le (Nat.add_pos_left (Nat.mul_pos (Nat.pos_of_ne_zero hlead) (by decide)) _)]
  match V, win, hlen with
  | [v0], [w0, w1], _ =>
    have hone : q * v0 ≤ w0 * radix + w1 := by simpa [limbsValue_cons] using hq
    have hscaled := Nat.mul_le_mul_right radix hone
    rw [Nat.mul_assoc] at hscaled
    simpa using hscaled
  | v0 :: v1 :: V, w0 :: w1 :: w2 :: win, hlen =>
    have hlen' : win.length = V.length := by simpa using hlen
    have hlow : ∀ d ∈ win, d < radix := fun d hd => hwin d (by simp [hd])
    have hden : limbsValue (v0 :: v1 :: V) = (v0 * radix + v1) * radix ^ win.length + limbsValue V := by
      simp only [limbsValue_cons, List.length_cons, hlen', pow_succ]
      ring
    have hnum : limbsValue (w0 :: w1 :: w2 :: win)
        = ((w0 * radix + w1) * radix + w2) * radix ^ win.length + limbsValue win := by
      simp only [limbsValue_cons, List.length_cons, pow_succ]
      ring
    rw [hden, hnum] at hq
    simpa using mul_le_of_mul_add_le (limbsValue_lt win hlow) hq

end Sys2Proof.Machine
end

section
/-! The digits of the long-division engine (43_div.md R135 to R138). The running numerator `T = win ++ rest` stands for
the fraction `T / (radix ^ (rest.length + 1) * V)`, below 1, of one unit of the place left of the current one. Each digit is
the integer part of that fraction times the radix, and the shift to the next place keeps what is left of it. -/

namespace Sys2Proof.Machine

open Config

/-! ### The answer for a fraction (R131) -/

/-- R131's answer for the quotient of `N` by `D` below digits already placed. -/
def divAnswer (placed N D : Nat) : Option (Mags × Bool) :=
  if placed + N / D ≥ capacity then none else some (limbs (placed + N / D), decide (N % D ≠ 0))

theorem quotient_eq_divAnswer (a b : Mags) : quotient a b = divAnswer 0 (a.toNat * fracScale) b.toNat := by
  rw [divAnswer, Nat.zero_add]
  rfl

/-- The answer depends on the fraction only: an integer part `q` may be placed, and the rest be in other terms. -/
theorem divAnswer_of_cross {N D N' D' q : Nat} (placed : Nat) (hD : 0 < D) (hD' : 0 < D')
    (h : N * D' = (q * D' + N') * D) : divAnswer placed N D = divAnswer (placed + q) N' D' := by
  have hdiv : N / D = q + N' / D' := by
    rw [← Nat.mul_div_mul_right N D hD', h, Nat.mul_comm D, Nat.mul_div_mul_right _ _ hD, Nat.add_comm,
      Nat.add_mul_div_right _ _ hD', Nat.add_comm]
  have hmod : N % D * D' = N' % D' * D := by
    rw [← Nat.mul_mod_mul_right, h, Nat.mul_comm D, Nat.mul_mod_mul_right, Nat.mul_add_mod']
  have hrem : N % D = 0 ↔ N' % D' = 0 := by
    rw [← mul_eq_zero_iff_right hD'.ne', hmod, mul_eq_zero_iff_right hD.ne']
  simp only [divAnswer, hdiv, ← Nat.add_assoc, ne_eq, hrem]

theorem divAnswer_congr {N D N' D' : Nat} (placed : Nat) (hD : 0 < D) (hD' : 0 < D') (h : N * D' = N' * D) :
    divAnswer placed N D = divAnswer placed N' D' := by
  have hcross : N * D' = (0 * D' + N') * D := by rw [h, Nat.zero_mul, Nat.zero_add]
  exact divAnswer_of_cross placed hD hD' hcross

/-- Nothing left to divide: the placed digits are the exact quotient. -/
theorem divAnswer_exhausted {res : Mags} (hres : res.inRange = true) (D : Nat) :
    divAnswer res.toNat 0 D = some (res, false) := by
  rw [divAnswer, Nat.zero_div, Nat.add_zero, if_neg (not_le.mpr (Mags.toNat_lt hres)), limbs_toNat hres, Nat.zero_mod]
  rfl

/-- Less than one unit left: the placed digits are the quotient, and the rest is cut off. -/
theorem divAnswer_cut {res : Mags} (hres : res.inRange = true) {N D : Nat} (hN : N ≠ 0) (hlt : N < D) :
    divAnswer res.toNat N D = some (res, true) := by
  rw [divAnswer, Nat.div_eq_of_lt hlt, Nat.add_zero, if_neg (not_le.mpr (Mags.toNat_lt hres)), limbs_toNat hres,
    Nat.mod_eq_of_lt hlt, decide_eq_true hN]

/-- A nonzero digit left of limb 0 overflows. -/
theorem divAnswer_overflow {q k : Nat} (hq : q ≠ 0) (hk : 5 < k) (placed N D : Nat) :
    divAnswer (placed + q * radix ^ k) N D = none := by
  refine if_pos ?_
  calc capacity = radix ^ 6 := by norm_num
    _ ≤ radix ^ k := Nat.pow_le_pow_right (by decide) hk
    _ ≤ q * radix ^ k := Nat.le_mul_of_pos_left _ (Nat.pos_of_ne_zero hq)
    _ ≤ placed + q * radix ^ k + N / D := (Nat.le_add_left _ _).trans (Nat.le_add_right _ _)

/-! ### Placing a digit (R137) -/

theorem get_eq_getD_toList (a : Mags) {i : Nat} (hi : i < 6) : a.get i = a.toList.getD i 0 := by
  interval_cases i <;> rfl

theorem toNat_set (a : Mags) {i : Nat} (hi : i < 6) (n : Nat) :
    (a.set i n).toNat + a.get i * radix ^ (5 - i) = a.toNat + n * radix ^ (5 - i) := by
  have hset : (a.set i n).toList = a.toList.set i n := by interval_cases i <;> rfl
  rw [← limbsValue_toList, ← limbsValue_toList, hset, get_eq_getD_toList a hi]
  exact limbsValue_set a.toList hi n

theorem get_eq_digit {a : Mags} (ha : a.inRange = true) {i : Nat} (hi : i < 6) :
    a.get i = a.toNat / radix ^ (5 - i) % radix := by
  rw [get_eq_getD_toList a hi, getD_eq_digit a.toList (toList_lt ha) hi, limbsValue_toList]
  rfl

/-- With the places from limb `5 - k` on still 0, the digit adds its weight; a digit left of limb 0 is 0. -/
theorem placeDigit_spec {res : Mags} (hres : res.inRange = true) {k q : Nat} (hfree : radix ^ (k + 1) ∣ res.toNat)
    (hq : q < radix) (hleft : k > 5 → q = 0) :
    (if k > 5 then res else res.set (5 - k) q).inRange = true ∧
      (if k > 5 then res else res.set (5 - k) q).toNat = res.toNat + q * radix ^ k := by
  by_cases hk : k > 5
  · rw [if_pos hk, hleft hk, Nat.zero_mul, Nat.add_zero]
    exact ⟨hres, rfl⟩
  · have hi : 5 - k < 6 := by omega
    have hweight : 5 - (5 - k) = k := by omega
    have hzero : res.get (5 - k) = 0 := by
      obtain ⟨c, hc⟩ := hfree
      rw [get_eq_digit hres hi, hweight, hc, pow_succ, Nat.mul_assoc, Nat.mul_div_cancel_left _ (by positivity),
        Nat.mul_mod_right]
    have hset := toNat_set res hi q
    rw [hzero, hweight, Nat.zero_mul, Nat.add_zero] at hset
    rw [if_neg hk]
    exact ⟨Mags.inRange_set hres hi hq, hset⟩

/-! ### The denominator and the running numerator (R134, R135) -/

/-- Limbs with a leading limb that is not 0. -/
structure IsDenominator (V : List Nat) : Prop where
  lt : ∀ d ∈ V, d < radix
  lead : V.getD 0 0 ≠ 0

theorem IsDenominator.pos {V : List Nat} (hV : IsDenominator V) : 0 < limbsValue V := by
  obtain ⟨-, hlead⟩ := hV
  cases V with
  | nil => simp at hlead
  | cons v V =>
    rw [limbsValue_cons]
    exact Nat.add_pos_left (Nat.mul_pos (Nat.pos_of_ne_zero hlead) (by positivity)) _

/-- A window of one limb more than the denominator, and a numerator whose next digit is below the radix. -/
structure IsRunning (V win rest : List Nat) : Prop where
  length : win.length = V.length + 1
  win_lt : ∀ d ∈ win, d < radix
  rest_lt : ∀ d ∈ rest, d < radix
  below : limbsValue (win ++ rest) < radix ^ (rest.length + 1) * limbsValue V

/-- R136: the digit is the quotient of the window by the denominator, the new window holds the remainder. -/
theorem settleDigit_estimate {V win rest : List Nat} (hV : IsDenominator V) (h : IsRunning V win rest) :
    let d := settleDigit win V (estimate win V)
    d.1 < radix ∧ d.2.length = V.length + 1 ∧ (∀ x ∈ d.2, x < radix) ∧ limbsValue d.2 < limbsValue V ∧
      limbsValue win = d.1 * limbsValue V + limbsValue d.2 := by
  have hwin : limbsValue win < radix * limbsValue V := by
    have hbelow := h.below
    rw [limbsValue_append, pow_succ, Nat.mul_assoc, Nat.mul_comm (radix ^ rest.length)] at hbelow
    exact Nat.lt_of_mul_lt_mul_right (lt_of_le_of_lt (Nat.le_add_right _ _) hbelow)
  have hest : estimate win V < radix := lt_of_le_of_lt (Nat.min_le_left _ _) (by decide)
  have hdigit : limbsValue win / limbsValue V < radix := Nat.div_lt_of_lt_mul (by rwa [Nat.mul_comm])
  obtain ⟨hlen, hlt, -, hval⟩ := windowSub_spec h.length h.win_lt hV.lt hdigit
  have hdiv := Nat.div_add_mod' (limbsValue win) (limbsValue V)
  have hrem : limbsValue (windowSub win V (limbsValue win / limbsValue V)).2 = limbsValue win % limbsValue V := by
    rw [hval (Nat.div_mul_le_self _ _)]
    omega
  rw [settleDigit_eq h.length h.win_lt hV.lt hV.pos hest (digit_le_estimate h.length h.win_lt hV.lead hwin)]
  dsimp only
  rw [hrem]
  exact ⟨hdigit, hlen.trans h.length, hlt, Nat.mod_lt _ hV.pos, hdiv.symm⟩

/-- R138: the shift moves the numerator one place left, past the end of `U` with a zero limb. -/
theorem limbsValue_shift {diff : List Nat} {n : Nat} (rest : List Nat) (hlen : diff.length = n + 1)
    (hlt : limbsValue diff < radix ^ n) :
    limbsValue ((diff.tail ++ [rest.getD 0 0]) ++ rest.tail) * radix ^ rest.length
      = limbsValue (diff ++ rest) * radix ^ (rest.tail.length + 1) := by
  have htail := limbsValue_tail hlen hlt
  cases rest with
  | nil => simp [limbsValue_append, limbsValue_cons, htail]
  | cons r rest => simp [limbsValue_append, htail]

/-- A number below the denominator, followed by limbs, is below the denominator followed by zeros. -/
theorem limbsValue_append_lt {V diff rest : List Nat} (hrest : ∀ d ∈ rest, d < radix)
    (hlt : limbsValue diff < limbsValue V) :
    limbsValue (diff ++ rest) < limbsValue V * radix ^ rest.length := by
  have hlow := limbsValue_lt rest hrest
  have hhigh := Nat.mul_le_mul_right (radix ^ rest.length) (Nat.succ_le_of_lt hlt)
  rw [Nat.succ_mul] at hhigh
  rw [limbsValue_append]
  omega

theorem isRunning_shift {V diff rest : List Nat} (hV : IsDenominator V) (hlen : diff.length = V.length + 1)
    (hdiff : ∀ d ∈ diff, d < radix) (hrest : ∀ d ∈ rest, d < radix) (hlt : limbsValue diff < limbsValue V) :
    IsRunning V (diff.tail ++ [rest.getD 0 0]) rest.tail where
  length := by simp [hlen]
  win_lt := by
    refine List.forall_mem_append.mpr ⟨fun d hd => hdiff d (List.mem_of_mem_tail hd), ?_⟩
    cases rest with
    | nil => simp
    | cons r rest => simpa using hrest r
  rest_lt d hd := hrest d (List.mem_of_mem_tail hd)
  below := by
    have hshift := limbsValue_shift rest hlen (hlt.trans (limbsValue_lt V hV.lt))
    have hT := limbsValue_append_lt hrest hlt
    refine Nat.lt_of_mul_lt_mul_right (a := radix ^ rest.length) ?_
    calc _ = radix ^ (rest.tail.length + 1) * limbsValue (diff ++ rest) := by rw [hshift, Nat.mul_comm]
      _ < radix ^ (rest.tail.length + 1) * (limbsValue V * radix ^ rest.length) :=
        Nat.mul_lt_mul_of_pos_left hT (by positivity)
      _ = _ := (Nat.mul_assoc _ _ _).symm

/-! ### The digits (R136 to R138) -/

/-- A digit taken out of the window is placed at its weight, and the rest is the fraction one place on. -/
theorem divAnswer_digit {V win diff rest : List Nat} {q : Nat} (hV : IsDenominator V)
    (hval : limbsValue win = q * limbsValue V + limbsValue diff) (placed k : Nat) :
    divAnswer placed (limbsValue (win ++ rest) * radix ^ (k + 1)) (radix ^ (rest.length + 1) * limbsValue V)
      = divAnswer (placed + q * radix ^ k) (limbsValue (diff ++ rest) * radix ^ k)
        (radix ^ rest.length * limbsValue V) := by
  have hVpos := hV.pos
  refine divAnswer_of_cross _ (by positivity) (by positivity) ?_
  rw [limbsValue_append, limbsValue_append, hval, pow_succ, pow_succ]
  ring

/-- The shift keeps the fraction. -/
theorem divAnswer_shift {V diff : List Nat} (rest : List Nat) (hV : IsDenominator V) (hlen : diff.length = V.length + 1)
    (hlt : limbsValue diff < limbsValue V) (placed k : Nat) :
    divAnswer placed (limbsValue ((diff.tail ++ [rest.getD 0 0]) ++ rest.tail) * radix ^ k)
        (radix ^ (rest.tail.length + 1) * limbsValue V)
      = divAnswer placed (limbsValue (diff ++ rest) * radix ^ k) (radix ^ rest.length * limbsValue V) := by
  have hVpos := hV.pos
  have hshift := limbsValue_shift rest hlen (hlt.trans (limbsValue_lt V hV.lt))
  refine divAnswer_congr _ (by positivity) (by positivity) ?_
  calc _ = limbsValue ((diff.tail ++ [rest.getD 0 0]) ++ rest.tail) * radix ^ rest.length
        * (radix ^ k * limbsValue V) := by ring
    _ = limbsValue (diff ++ rest) * radix ^ (rest.tail.length + 1) * (radix ^ k * limbsValue V) := by rw [hshift]
    _ = _ := by ring

/-- The digits placed and the fraction of the running numerator make up the answer of R131 at every step. -/
theorem engineDigits_eq {V : List Nat} (hV : IsDenominator V) (k : Nat) {win rest : List Nat} {res : Mags}
    (h : IsRunning V win rest) (hne : limbsValue (win ++ rest) ≠ 0) (hres : res.inRange = true)
    (hfree : radix ^ k ∣ res.toNat) :
    engineDigits V k win rest res
      = divAnswer res.toNat (limbsValue (win ++ rest) * radix ^ k) (radix ^ (rest.length + 1) * limbsValue V) := by
  induction k generalizing win rest res with
  | zero => rw [engineDigits, pow_zero, Nat.mul_one, divAnswer_cut hres hne h.below]
  | succ k ih =>
    obtain ⟨hq, hlen, hdiff, hlt, hval⟩ := settleDigit_estimate hV h
    rw [engineDigits, divAnswer_digit hV hval]
    dsimp only
    generalize settleDigit win V (estimate win V) = d at *
    by_cases hleft : k > 5 ∧ d.1 ≠ 0
    · obtain ⟨hk, hne⟩ := hleft
      rw [if_pos ⟨hk, hne⟩, divAnswer_overflow hne hk]
    obtain ⟨hres', hplaced⟩ := placeDigit_spec hres hfree hq (by simpa using hleft)
    rw [if_neg hleft, ← hplaced]
    generalize (if k > 5 then res else res.set (5 - k) d.1) = res' at *
    have hexhausted : (d.2.all (· == 0) && rest.all (· == 0)) = true ↔ limbsValue (d.2 ++ rest) = 0 := by
      rw [← List.all_append, all_zero_iff]
    by_cases hdone : limbsValue (d.2 ++ rest) = 0
    · rw [if_pos (hexhausted.mpr hdone), hdone, Nat.zero_mul, divAnswer_exhausted hres']
    · have hne' : limbsValue ((d.2.tail ++ [rest.getD 0 0]) ++ rest.tail) ≠ 0 := by
        have hshift := limbsValue_shift rest hlen (hlt.trans (limbsValue_lt V hV.lt))
        intro h0
        rw [h0, Nat.zero_mul, eq_comm, mul_eq_zero] at hshift
        exact hshift.elim hdone (by positivity)
      have hfree' : radix ^ k ∣ res'.toNat :=
        hplaced ▸ Nat.dvd_add ((pow_dvd_pow _ (Nat.le_succ k)).trans hfree) (Nat.dvd_mul_left _ _)
      rw [if_neg (hexhausted.not.mpr hdone), ih (isRunning_shift hV hlen hdiff h.rest_lt hlt) hne' hres' hfree',
        divAnswer_shift rest hV hlen hlt]

end Sys2Proof.Machine
end

section
/-! The long-division engine computes the quotient (43_div.md R140): leading-zero skip, position, normalisation and the
first window (R132 to R135) only restate the fraction of R131, and the digits keep it (`engineDigits_eq`). -/

namespace Sys2Proof.Machine

open Config

/-! ### Leading-zero skip (R132) -/

/-- Skipping the leading zeros keeps the number, and the first limb left is not 0. -/
theorem drop_findIdx_spec {l : List Nat} (hl : limbsValue l ≠ 0) :
    ∃ d t, l.drop (l.findIdx (· != 0)) = d :: t ∧ l.getD (l.findIdx (· != 0)) 0 = d ∧ d ≠ 0 ∧
      limbsValue (d :: t) = limbsValue l ∧ l.findIdx (· != 0) + t.length + 1 = l.length := by
  induction l with
  | nil => simp at hl
  | cons x l ih =>
    by_cases hx : x = 0
    · subst hx
      have hidx : (0 :: l).findIdx (· != 0) = l.findIdx (· != 0) + 1 := by simp [List.findIdx_cons]
      have hskip : limbsValue (0 :: l) = limbsValue l := by simp [limbsValue_cons]
      rw [hskip] at hl ⊢
      obtain ⟨d, t, hdrop, hget, hd, hval, hlen⟩ := ih hl
      rw [hidx, List.drop_succ_cons, List.getD_cons_succ, List.length_cons]
      exact ⟨d, t, hdrop, hget, hd, hval, by omega⟩
    · have hx' : (x != 0) = true := by simpa using hx
      have hidx : (x :: l).findIdx (· != 0) = 0 := by simp [List.findIdx_cons, hx']
      rw [hidx]
      exact ⟨x, l, rfl, rfl, hx, rfl, by simp⟩

/-! ### Normalisation (R134) -/

/-- The factor of R134 for the leading limb of the denominator. -/
def normFactor (lead : Nat) : Nat := if lead < radix / 2 then radix / 2 / (lead + 1) else 1

theorem normFactor_spec {lead : Nat} (h : lead < radix) :
    0 < normFactor lead ∧ normFactor lead < radix ∧ normFactor lead * (lead + 1) ≤ radix := by
  have hhalf : radix / 2 < radix := by decide
  unfold normFactor
  split
  next hlt =>
    have hmul := Nat.div_mul_le_self (radix / 2) (lead + 1)
    have hdiv := Nat.div_le_self (radix / 2) (lead + 1)
    exact ⟨Nat.div_pos hlt (Nat.succ_pos _), hdiv.trans_lt hhalf, hmul.trans hhalf.le⟩
  next => exact ⟨Nat.one_pos, by decide, by omega⟩

/-- A number is less than its leading limb's successor at the leading limb's weight. -/
theorem limbsValue_lt_succ_head {d : Nat} {t : List Nat} (ht : ∀ x ∈ t, x < radix) :
    limbsValue (d :: t) < (d + 1) * radix ^ t.length := by
  have hlow := limbsValue_lt t ht
  rw [limbsValue_cons, Nat.succ_mul]
  omega

theorem head_ne_zero {l : List Nat} {n : Nat} (hlen : l.length = n + 1) (hlt : ∀ d ∈ l, d < radix)
    (hge : radix ^ n ≤ limbsValue l) : l.getD 0 0 ≠ 0 := by
  cases l with
  | nil => simp at hlen
  | cons d t =>
    obtain rfl : t.length = n := by simpa using hlen
    rintro rfl
    have hsmall := limbsValue_lt_succ_head (d := 0) (List.forall_mem_cons.mp hlt).2
    rw [Nat.zero_add, Nat.one_mul] at hsmall
    exact absurd hge (not_le.mpr hsmall)

/-- `V` never needs an extra limb, and its leading limb stays nonzero. -/
theorem scale_denominator {d : Nat} {t : List Nat} (hd : d ≠ 0) (hlt : ∀ x ∈ d :: t, x < radix) :
    let V := (scaleLimbs (normFactor d) (d :: t)).2
    IsDenominator V ∧ V.length = t.length + 1 ∧ limbsValue V = normFactor d * limbsValue (d :: t) := by
  obtain ⟨hdlt, ht⟩ := List.forall_mem_cons.mp hlt
  obtain ⟨hf, -, hfit⟩ := normFactor_spec hdlt
  obtain ⟨hlen, hVlt, -⟩ := scaleLimbs_spec (normFactor d) (d :: t)
  have hsmall : normFactor d * limbsValue (d :: t) < radix ^ (d :: t).length :=
    calc normFactor d * limbsValue (d :: t)
        < normFactor d * ((d + 1) * radix ^ t.length) := Nat.mul_lt_mul_of_pos_left (limbsValue_lt_succ_head ht) hf
      _ = normFactor d * (d + 1) * radix ^ t.length := (Nat.mul_assoc _ _ _).symm
      _ ≤ radix * radix ^ t.length := Nat.mul_le_mul_right _ hfit
      _ = radix ^ (d :: t).length := (pow_succ' _ _).symm
  obtain ⟨-, hval⟩ := scaleLimbs_carry_eq_zero hsmall
  have hge : radix ^ t.length ≤ normFactor d * limbsValue (d :: t) :=
    calc radix ^ t.length ≤ d * radix ^ t.length := Nat.le_mul_of_pos_left _ (Nat.pos_of_ne_zero hd)
      _ ≤ limbsValue (d :: t) := by rw [limbsValue_cons]; exact Nat.le_add_right _ _
      _ ≤ normFactor d * limbsValue (d :: t) := Nat.le_mul_of_pos_left _ hf
  exact ⟨⟨hVlt, head_ne_zero hlen hVlt (hval ▸ hge)⟩, hlen, hval⟩

/-- The limbs `U` of R135: without the carry limb, which is empty, when the first digit would be 0 (`long`), and with it
otherwise. Either way `U` is less than the denominator's leading limb at the weight of `U`'s own. -/
theorem scale_numerator {dn dd : Nat} {t : List Nat} (hdd : dd ≠ 0) (hdlt : dd < radix)
    (hlt : ∀ x ∈ dn :: t, x < radix) :
    let u := scaleLimbs (normFactor dd) (dn :: t)
    let U := if dn < dd then u.2 else u.1 :: u.2
    ∃ p, U.length = p + 1 ∧ p + (if dn < dd then 1 else 0) = t.length + 1 ∧ (∀ x ∈ U, x < radix) ∧
      limbsValue U = normFactor dd * limbsValue (dn :: t) ∧ limbsValue U < normFactor dd * dd * radix ^ p := by
  obtain ⟨hf, hflt, hfit⟩ := normFactor_spec hdlt
  obtain ⟨hlen, hult, hval⟩ := scaleLimbs_spec (normFactor dd) (dn :: t)
  dsimp only
  by_cases hlong : dn < dd
  · have hbelow : normFactor dd * limbsValue (dn :: t) < normFactor dd * dd * radix ^ t.length := by
      rw [Nat.mul_assoc]
      refine Nat.mul_lt_mul_of_pos_left (lt_of_lt_of_le (limbsValue_lt_succ_head (List.forall_mem_cons.mp hlt).2) ?_) hf
      exact Nat.mul_le_mul_right _ hlong
    have hsmall : normFactor dd * limbsValue (dn :: t) < radix ^ (dn :: t).length := by
      refine hbelow.trans_le ?_
      rw [List.length_cons, pow_succ']
      exact Nat.mul_le_mul_right _ ((Nat.mul_le_mul_left _ (Nat.le_succ dd)).trans hfit)
    obtain ⟨-, hval'⟩ := scaleLimbs_carry_eq_zero hsmall
    rw [if_pos hlong, if_pos hlong]
    exact ⟨t.length, hlen, rfl, hult, hval', hval' ▸ hbelow⟩
  · have hbelow : normFactor dd * limbsValue (dn :: t) < normFactor dd * dd * radix ^ (t.length + 1) := by
      rw [Nat.mul_assoc]
      refine Nat.mul_lt_mul_of_pos_left (lt_of_lt_of_le (limbsValue_lt _ hlt) ?_) hf
      exact Nat.le_mul_of_pos_left _ (Nat.pos_of_ne_zero hdd)
    rw [if_neg hlong, if_neg hlong]
    refine ⟨t.length + 1, by rw [List.length_cons, hlen, List.length_cons], rfl, ?_, hval, hval ▸ hbelow⟩
    exact List.forall_mem_cons.mpr ⟨scaleLimbs_carry_lt hflt hlt, hult⟩

/-! ### The first window (R135) -/

/-- The window and what is not yet in it are `U`, filled with zeros when `U` is the shorter. -/
theorem padTake_append_drop (n : Nat) (U : List Nat) :
    padTake n U ++ U.drop n = U ++ List.replicate (n - U.length) 0 := by
  rw [padTake, List.take_append, List.take_replicate, min_eq_left (Nat.sub_le _ _)]
  obtain hle | hle := Nat.le_total n U.length
  · rw [Nat.sub_eq_zero_of_le hle, List.replicate_zero, List.append_nil, List.append_nil, List.take_append_drop]
  · rw [List.take_of_length_le hle, List.drop_of_length_le hle, List.append_nil]

theorem length_padTake (n : Nat) (U : List Nat) : (padTake n U).length = n := by
  simp [padTake]

/-- From the first window on, the engine answers the fraction of `U` by `V`, `k` places after the first. -/
theorem engineDigits_first {V U : List Nat} {m p h : Nat} (hV : IsDenominator V) (hVlen : V.length = m + 1)
    (hUlen : U.length = p + 1) (hU : ∀ x ∈ U, x < radix) (hne : limbsValue U ≠ 0) (hlow : h * radix ^ m ≤ limbsValue V)
    (hup : limbsValue U < h * radix ^ p) (k : Nat) :
    engineDigits V k (padTake (V.length + 1) U) (U.drop (V.length + 1)) zeroMags
      = divAnswer 0 (limbsValue U * radix ^ (m + 1 + k)) (radix ^ (p + 1) * limbsValue V) := by
  have hVpos := hV.pos
  have hsplit := padTake_append_drop (V.length + 1) U
  have hmem : ∀ x ∈ padTake (V.length + 1) U ++ U.drop (V.length + 1), x < radix := by
    rw [hsplit]
    refine List.forall_mem_append.mpr ⟨hU, fun x hx => ?_⟩
    rw [List.eq_of_mem_replicate hx]
    decide
  obtain ⟨hwin, hrest⟩ := List.forall_mem_append.mp hmem
  have hT : limbsValue (padTake (V.length + 1) U ++ U.drop (V.length + 1))
      = limbsValue U * radix ^ (V.length + 1 - U.length) := by
    rw [hsplit, limbsValue_append, limbsValue_replicate_zero, List.length_replicate, Nat.add_zero]
  have hrestlen : (U.drop (V.length + 1)).length = U.length - (V.length + 1) := List.length_drop
  have hbelow : limbsValue (padTake (V.length + 1) U ++ U.drop (V.length + 1))
      < radix ^ ((U.drop (V.length + 1)).length + 1) * limbsValue V := by
    rw [hT, hrestlen]
    calc limbsValue U * radix ^ (V.length + 1 - U.length)
        < h * radix ^ p * radix ^ (V.length + 1 - U.length) := Nat.mul_lt_mul_of_pos_right hup (by positivity)
      _ = h * radix ^ m * radix ^ (U.length - (V.length + 1) + 1) := by
        rw [Nat.mul_assoc, ← pow_add, Nat.mul_assoc, ← pow_add]
        congr 2
        omega
      _ ≤ limbsValue V * radix ^ (U.length - (V.length + 1) + 1) := Nat.mul_le_mul_right _ hlow
      _ = _ := Nat.mul_comm _ _
  rw [engineDigits_eq hV k ⟨length_padTake _ _, hwin, hrest, hbelow⟩ (by rw [hT]; positivity) inRange_zeroMags
    (by simp), toNat_zeroMags, hT, hrestlen]
  refine divAnswer_congr _ (by positivity) (by positivity) ?_
  have hexp : radix ^ (V.length + 1 - U.length) * radix ^ (p + 1)
      = radix ^ (m + 1) * radix ^ (U.length - (V.length + 1) + 1) := by
    rw [← pow_add, ← pow_add]
    congr 1
    omega
  calc _ = limbsValue U * radix ^ k * limbsValue V * (radix ^ (V.length + 1 - U.length) * radix ^ (p + 1)) := by ring
    _ = limbsValue U * radix ^ k * limbsValue V * (radix ^ (m + 1) * radix ^ (U.length - (V.length + 1) + 1)) := by
      rw [hexp]
    _ = _ := by ring

/-! ### The engine (R132 to R138) -/

/-- With the places of R133, the fraction of the scaled operands is R131's; when the first digit would land right of
limb 5, the quotient is 0. -/
theorem engineDigits_first_eq_quotient {a b : Mags} {V U : List Nat} {f m p h : Nat} (hf : 0 < f) (hV : IsDenominator V)
    (hVlen : V.length = m + 1) (hVval : limbsValue V = f * b.toNat) (hUlen : U.length = p + 1)
    (hU : ∀ x ∈ U, x < radix) (hUval : limbsValue U = f * a.toNat) (ha0 : a.toNat ≠ 0)
    (hlow : h * radix ^ m ≤ limbsValue V) (hup : limbsValue U < h * radix ^ p) :
    engineDigits V (4 + p - m) (padTake (V.length + 1) U) (U.drop (V.length + 1)) zeroMags = quotient a b := by
  have hscale : fracScale = radix ^ 4 := by norm_num
  have hb0 : 0 < b.toNat := Nat.pos_of_mul_pos_left (hVval ▸ hV.pos)
  have hne : limbsValue U ≠ 0 := by rw [hUval]; positivity
  rw [quotient_eq_divAnswer, hscale]
  by_cases hright : m ≤ 4 + p
  · rw [engineDigits_first hV hVlen hUlen hU hne hlow hup]
    refine divAnswer_congr _ (Nat.mul_pos (by positivity) hV.pos) hb0 ?_
    rw [hUval, hVval]
    have hexp : radix ^ (m + 1 + (4 + p - m)) = radix ^ 4 * radix ^ (p + 1) := by
      rw [← pow_add]
      congr 1
      omega
    rw [hexp]
    ring
  · have hplaces : 4 + p - m = 0 := by omega
    have hsmall : a.toNat * radix ^ 4 < b.toNat := by
      refine Nat.lt_of_mul_lt_mul_left (a := f) ?_
      calc f * (a.toNat * radix ^ 4) = limbsValue U * radix ^ 4 := by rw [hUval, Nat.mul_assoc]
        _ < h * radix ^ p * radix ^ 4 := Nat.mul_lt_mul_of_pos_right hup (by positivity)
        _ = h * radix ^ (p + 4) := by rw [Nat.mul_assoc, pow_add]
        _ ≤ h * radix ^ m := Nat.mul_le_mul_left _ (Nat.pow_le_pow_right (by decide) (by omega))
        _ ≤ f * b.toNat := hVval ▸ hlow
    rw [hplaces, engineDigits]
    exact (divAnswer_cut inRange_zeroMags (by positivity) hsmall).symm

/-- The engine answers as R131 does (R140). -/
theorem engine_eq_quotient {a b : Mags} (ha : a.inRange = true) (hb : b.inRange = true) (ha0 : a.toNat ≠ 0)
    (hb0 : b.toNat ≠ 0) : engine a b = quotient a b := by
  rw [← limbsValue_toList] at ha0 hb0
  obtain ⟨dn, tn, hdropn, hgetn, -, hvaln, hlenn⟩ := drop_findIdx_spec ha0
  obtain ⟨dd, td, hdropd, hgetd, hdd, hvald, hlend⟩ := drop_findIdx_spec hb0
  have hltn : ∀ x ∈ dn :: tn, x < radix := fun x hx => toList_lt ha x (List.mem_of_mem_drop (hdropn ▸ hx))
  have hltd : ∀ x ∈ dd :: td, x < radix := fun x hx => toList_lt hb x (List.mem_of_mem_drop (hdropd ▸ hx))
  have hdlt := (List.forall_mem_cons.mp hltd).1
  obtain ⟨hf, -, -⟩ := normFactor_spec hdlt
  obtain ⟨hV, hVlen, hVval⟩ := scale_denominator hdd hltd
  obtain ⟨p, hUlen, hp, hU, hUval, hup⟩ := scale_numerator hdd hdlt hltn
  have hlow : normFactor dd * dd * radix ^ td.length ≤ limbsValue (scaleLimbs (normFactor dd) (dd :: td)).2 := by
    rw [hVval, limbsValue_cons, Nat.mul_assoc]
    exact Nat.mul_le_mul_left _ (Nat.le_add_right _ _)
  rw [engine]
  simp only [hdropn, hdropd, hgetn, hgetd, decide_eq_true_eq]
  have hplaces : 5 + b.toList.findIdx (· != 0) - a.toList.findIdx (· != 0) - (if dn < dd then 1 else 0)
      = 4 + p - td.length := by
    have hsix : a.toList.length = 6 ∧ b.toList.length = 6 := ⟨rfl, rfl⟩
    omega
  rw [hplaces]
  rw [hvaln, limbsValue_toList] at hUval
  rw [hvald, limbsValue_toList] at hVval
  rw [limbsValue_toList] at ha0
  exact engineDigits_first_eq_quotient hf hV hVlen hVval hUlen hU hUval ha0 hlow hup

/-- Settles O29: every digit the engine settles keeps the answer of R131 (`engineDigits_eq`), from the first
window on. -/
theorem engineComputesQuotient : Obligations.EngineComputesQuotient := by
  intro a b ha hb ha0 hb0
  rw [engine_eq_quotient ha hb ha0 hb0]
  rfl

end Sys2Proof.Machine
end

section
/-! The obligation of 44_round.md. With `radix ^ (5 - L)` the weight of the limb of the cut, the limbs up to the cut are
the quotient by that weight and the limbs below it the remainder (R151), so the rounding unit gives the kept multiple of
one unit of the last kept place, plus one such unit when the mode rounds up (`roundMags_spec`); ROUND on naturals
(`Value.roundOnNat`) is read off it. -/

namespace Sys2Proof.Machine

open Config

/-! ### The limbs on either side of the cut (R150 lines 15 and 17) -/

theorem get_clearBelow (m : Mags) {L : Nat} (hL : L < 6) : (clearBelow m L).get L = m.get L := by
  interval_cases L <;> rfl

theorem length_drop_toList (m : Mags) (L : Nat) : (m.toList.drop (L + 1)).length = 5 - L :=
  List.length_drop.trans (Nat.add_sub_add_right 5 1 L)

theorem toList_clearBelow (m : Mags) {L : Nat} (hL : L < 6) :
    (clearBelow m L).toList = m.toList.take (L + 1) ++ List.replicate (5 - L) 0 := by
  interval_cases L <;> rfl

theorem toNat_eq_take_add_drop (m : Mags) (L : Nat) :
    m.toNat = limbsValue (m.toList.take (L + 1)) * radix ^ (5 - L) + limbsValue (m.toList.drop (L + 1)) := by
  rw [← length_drop_toList m L, ← limbsValue_append, List.take_append_drop, limbsValue_toList]

section
variable {m : Mags} (hm : m.inRange = true)

include hm

theorem limbsValue_drop_toList_lt (L : Nat) : limbsValue (m.toList.drop (L + 1)) < radix ^ (5 - L) :=
  length_drop_toList m L ▸ limbsValue_lt _ fun d hd => toList_lt hm d (List.mem_of_mem_drop hd)

theorem limbsValue_take_toList (L : Nat) : limbsValue (m.toList.take (L + 1)) = m.toNat / radix ^ (5 - L) := by
  have hlow := limbsValue_drop_toList_lt hm L
  rw [toNat_eq_take_add_drop m L]
  exact (Nat.div_eq_of_lt_le (Nat.le_add_right _ _) (by rw [Nat.succ_mul]; omega)).symm

theorem limbsValue_drop_toList (L : Nat) : limbsValue (m.toList.drop (L + 1)) = m.toNat % radix ^ (5 - L) := by
  rw [toNat_eq_take_add_drop m L, Nat.mul_add_mod', Nat.mod_eq_of_lt (limbsValue_drop_toList_lt hm L)]

theorem toNat_clearBelow {L : Nat} (hL : L < 6) :
    (clearBelow m L).toNat = m.toNat / radix ^ (5 - L) * radix ^ (5 - L) := by
  rw [← limbsValue_toList, toList_clearBelow m hL, limbsValue_append, limbsValue_replicate_zero, List.length_replicate,
    limbsValue_take_toList hm L, Nat.add_zero]

theorem lowerNonzero_eq (L : Nat) : lowerNonzero m L = decide (m.toNat % radix ^ (5 - L) ≠ 0) := by
  rw [← limbsValue_drop_toList hm L, Bool.eq_iff_iff, decide_eq_true_iff, ne_eq, ← all_zero_iff, lowerNonzero]
  simp

end

/-! ### One limb more or less (R150 lines 14, 20, 23 and 25) -/

theorem toNat_set_add (m : Mags) {i : Nat} (hi : i < 6) (c : Nat) :
    (m.set i (m.get i + c)).toNat = m.toNat + c * radix ^ (5 - i) := by
  have hset := toNat_set m hi (m.get i + c)
  rw [Nat.add_mul] at hset
  omega

theorem toNat_set_sub (m : Mags) {i c : Nat} (hi : i < 6) (hc : c ≤ m.get i) :
    (m.set i (m.get i - c)).toNat + c * radix ^ (5 - i) = m.toNat := by
  have hset := toNat_set m hi (m.get i - c)
  have hle := Nat.mul_le_mul_right (radix ^ (5 - i)) hc
  rw [Nat.sub_mul] at hset
  omega

/-- A carry moves the radix of one limb to a unit of the next; what leaves limb 0 is a unit of 10^54. -/
theorem toNat_carryLeft (m : Mags) {i : Nat} (hi : i < 6) :
    (carryLeft m i).1.toNat + (carryLeft m i).2.toNat * capacity = m.toNat := by
  induction i generalizing m with
  | zero =>
    rw [carryLeft]
    split
    next hge =>
      have hunit : radix * radix ^ (5 - 0) = capacity := by norm_num
      rw [Bool.toNat_true, Nat.one_mul, ← hunit, toNat_set_sub m hi hge]
    · rw [Bool.toNat_false, Nat.zero_mul, Nat.add_zero]
  | succ i ih =>
    have hi' : i < 6 := by omega
    rw [carryLeft]
    split
    next hge =>
      have hget : (m.set (i + 1) (m.get (i + 1) - radix)).get i = m.get i := by
        rw [Mags.get_set m hi hi', if_neg (by omega)]
      have hweight : radix * radix ^ (5 - (i + 1)) = radix ^ (5 - i) := by
        rw [← pow_succ']
        congr 1
        omega
      rw [ih _ hi', ← hget, toNat_set_add _ hi', Nat.one_mul, ← hweight]
      exact toNat_set_sub m hi hge
    · rw [Bool.toNat_false, Nat.zero_mul, Nat.add_zero]

/-! ### The rounding unit (R150 lines 11 to 25, R151) -/

/-- One unit of the last kept place: `W` at the weight of the limb of the cut. -/
theorem roundUnit_mul_weight {p : Nat} (hp : p < 36) :
    roundUnit p * radix ^ (5 - roundLimb p) = 10 ^ (36 - p) := by
  have hradix : radix = 10 ^ 9 := by norm_num
  rw [roundUnit, roundLimb, hradix, ← pow_mul, ← pow_add]
  congr 1
  omega

theorem weight_roundLimb (p : Nat) : radix ^ (5 - roundLimb p) = 10 ^ (9 * (3 - p / 9)) := by
  have hradix : radix = 10 ^ 9 := by norm_num
  have hexp : 5 - roundLimb p = 3 - p / 9 := Nat.add_sub_add_left 2 3 (p / 9)
  rw [hexp, hradix, ← pow_mul]

theorem roundLimb_lt {p : Nat} (hp : p < 36) : roundLimb p < 6 := by
  unfold roundLimb
  omega

theorem roundUnit_dvd_radix (p : Nat) : roundUnit p ∣ radix := pow_dvd_pow 10 (Nat.sub_le 9 (p % 9))

/-- `W` is even, so half of it is a whole number (R153). -/
theorem two_dvd_roundUnit (p : Nat) : 2 ∣ roundUnit p :=
  (by decide : 2 ∣ 10).trans (dvd_pow_self 10 (by omega))

/-- Taking the remainder by `W` off the multiples of `B` leaves the multiples of `W * B`. -/
theorem sub_mod_mul_div_mul (X B W : Nat) : (X - X / B % W * B) / B * B = X / (W * B) * (W * B) := by
  have hkept : X / B - X / B % W = W * (X / B / W) := Nat.sub_eq_of_eq_add (Nat.div_add_mod _ _).symm
  rw [Nat.mul_comm (X / B % W) B, Nat.sub_mul_div, hkept, Nat.div_div_eq_div_mul, Nat.mul_comm B W]
  ring

/-- Lines 13, 14 and 17: the limbs rounded down. -/
def roundDown (m : Mags) (p : Nat) : Mags :=
  clearBelow (m.set (roundLimb p) (m.get (roundLimb p) - m.get (roundLimb p) % roundUnit p)) (roundLimb p)

/-- Lines 16 to 25: a round-up adds one unit to the limbs rounded down. -/
theorem roundMags_eq (sw : Switches) (m : Mags) {p : Nat} (hp : p < 36) (mode : Mode) :
    roundMags sw m p mode =
      if roundUp sw mode (m.get (roundLimb p) % roundUnit p) (roundUnit p) (lowerNonzero m (roundLimb p)) then
        carryLeft ((roundDown m p).set (roundLimb p) ((roundDown m p).get (roundLimb p) + roundUnit p)) (roundLimb p)
      else (roundDown m p, false) := by
  have hL := roundLimb_lt hp
  rw [roundDown, get_clearBelow _ hL, Mags.get_set m hL hL, if_pos rfl]
  rfl

section
variable {m : Mags} (hm : m.inRange = true) {p : Nat} (hp : p < 36)
include hm hp

/-- `rem` of line 13 is what the discarded number has in the limb of the cut. -/
theorem roundRem_eq :
    m.get (roundLimb p) % roundUnit p = m.toNat % 10 ^ (36 - p) / radix ^ (5 - roundLimb p) := by
  rw [get_eq_digit hm (roundLimb_lt hp), Nat.mod_mod_of_dvd _ (roundUnit_dvd_radix p), ← roundUnit_mul_weight hp,
    Nat.mod_mul_left_div_self]

/-- Rounding down keeps the multiple of `D` below. -/
theorem toNat_roundDown : (roundDown m p).toNat = m.toNat / 10 ^ (36 - p) * 10 ^ (36 - p) := by
  have hL := roundLimb_lt hp
  have hrem := Nat.mod_le (m.get (roundLimb p)) (roundUnit p)
  have hlimb := Mags.inRange_iff_get.mp hm _ hL
  have hset := Nat.eq_sub_of_add_eq (toNat_set_sub m hL hrem)
  rw [roundDown, toNat_clearBelow (Mags.inRange_set hm hL (by omega)) hL, hset, roundRem_eq hm hp,
    ← roundUnit_mul_weight hp, Nat.mod_mul_left_div_self]
  exact sub_mod_mul_div_mul _ _ _

/-- Lines 11 to 25 of R150 on naturals: the kept multiple of `D`, plus one `D` when the mode rounds up. -/
theorem roundMags_spec (sw : Switches) (mode : Mode) {up : Bool}
    (hup : roundUp sw mode (m.get (roundLimb p) % roundUnit p) (roundUnit p) (lowerNonzero m (roundLimb p)) = up) :
    (roundMags sw m p mode).1.toNat + (roundMags sw m p mode).2.toNat * capacity
      = (m.toNat / 10 ^ (36 - p) + if up then 1 else 0) * 10 ^ (36 - p) := by
  have hL := roundLimb_lt hp
  rw [roundMags_eq sw m hp, hup, Nat.add_mul, ← toNat_roundDown hm hp]
  cases up with
  | false => simp
  | true => rw [if_pos rfl, if_pos rfl, toNat_carryLeft _ hL, toNat_set_add _ hL, roundUnit_mul_weight hp, Nat.one_mul]

end

/-! ### The modes (R153, R154) -/

/-- R153 for the magnitude `X`: whether a mode rounds up at `p` places. HalfDown sees only the limb of the cut
(R154). -/
def roundsUp (X p : Nat) : Mode → Bool
  | .towards => false
  | .away => decide (X % 10 ^ (36 - p) ≠ 0)
  | .halfDown => decide (2 * (X % 10 ^ (36 - p) / 10 ^ (9 * (3 - p / 9))) > 10 ^ (9 - p % 9))
  | .halfUp => decide (2 * (X % 10 ^ (36 - p)) ≥ 10 ^ (36 - p))

/-- Digits in the limb of the cut or below it: any digit that is discarded (mode Away). -/
theorem div_ne_zero_or_mod_ne_zero_iff (Y B : Nat) : (Y / B ≠ 0 ∨ Y % B ≠ 0) ↔ Y ≠ 0 := by
  rw [← not_and_or, not_iff_not]
  constructor
  · rintro ⟨hdiv, hmod⟩
    rw [← Nat.div_add_mod Y B, hdiv, hmod, Nat.mul_zero]
  · rintro rfl
    exact ⟨Nat.zero_div B, Nat.zero_mod B⟩

/-- Half of an even unit is reached in the limb of the cut or not at all (mode HalfUp). -/
theorem two_mul_div_ge_iff {W B : Nat} (hW : 2 ∣ W) (hB : 0 < B) (Y : Nat) : 2 * (Y / B) ≥ W ↔ 2 * Y ≥ W * B := by
  obtain ⟨H, rfl⟩ := hW
  rw [Nat.mul_assoc, ge_iff_le, ge_iff_le, Nat.mul_le_mul_left_iff Nat.two_pos, Nat.mul_le_mul_left_iff Nat.two_pos,
    Nat.le_div_iff_mul_le hB]

theorem roundUp_eq_roundsUp {m : Mags} (hm : m.inRange = true) {p : Nat} (hp : p < 36) (mode : Mode) :
    roundUp switches mode (m.get (roundLimb p) % roundUnit p) (roundUnit p) (lowerNonzero m (roundLimb p))
      = roundsUp m.toNat p mode := by
  have hD := roundUnit_mul_weight hp
  rw [roundRem_eq hm hp]
  cases mode with
  | towards => rfl
  | away =>
    have hlow : m.toNat % radix ^ (5 - roundLimb p)
        = m.toNat % 10 ^ (36 - p) % radix ^ (5 - roundLimb p) :=
      (Nat.mod_mod_of_dvd _ ⟨roundUnit p, by rw [← hD, Nat.mul_comm]⟩).symm
    rw [roundUp, roundsUp, lowerNonzero_eq hm (roundLimb p), hlow, ← Bool.decide_or]
    exact decide_eq_decide.mpr (div_ne_zero_or_mod_ne_zero_iff _ _)
  | halfDown =>
    rw [weight_roundLimb]
    exact Bool.or_false _
  | halfUp =>
    have hhalf := two_mul_div_ge_iff (two_dvd_roundUnit p) (B := radix ^ (5 - roundLimb p)) (by positivity)
      (m.toNat % 10 ^ (36 - p))
    rw [hD] at hhalf
    exact decide_eq_decide.mpr hhalf

/-! ### ROUND on naturals (R150) -/

/-- The magnitude `X` rounded to `p` places, in units of the last kept place and then in full. -/
def roundedNat (X p : Nat) (mode : Mode) : Nat :=
  (X / 10 ^ (36 - p) + if roundsUp X p mode then 1 else 0) * 10 ^ (36 - p)

/-- R150 with `N(x)` for the limbs, at the spec's setting of the switches (R8). -/
def Value.roundOnNat (x : Value) (places : Int) (mode : Mode) : Value :=
  let n := roundedNat x.toNat places.toNat mode
  if x.nan = true then nanValue
  else if x.ovf = true then overflowValue x.neg false
  else if x.toNat = 0 then zeroValue
  else if places < 0 then nanValue
  else if places ≥ 36 then mkValue x.neg false x.toNat
  else if n ≥ 10 ^ 54 then overflowValue x.neg false
  else mkValue (x.neg && decide (n ≠ 0)) false n

/-- Lines 26 to 29: the rounded limbs are those of the rounded number, which carries out of limb 0 when it does not
fit. -/
theorem withSign_roundMags {m : Mags} (hm : m.inRange = true) {p : Nat} (hp : p < 36) (mode : Mode) (s : Bool) :
    (if (roundMags switches m p mode).2 then overflowValue s false
      else withSign (finite false false (roundMags switches m p mode).1) s)
      = if roundedNat m.toNat p mode ≥ 10 ^ 54 then overflowValue s false
        else mkValue (s && decide (roundedNat m.toNat p mode ≠ 0)) false (roundedNat m.toNat p mode) := by
  have hspec := roundMags_spec hm hp switches mode (roundUp_eq_roundsUp hm hp mode)
  have hrange := inRange_roundMags switches hm hp mode
  rw [← roundedNat] at hspec
  generalize roundMags switches m p mode = r at hspec hrange ⊢
  cases hcarry : r.2 with
  | true =>
    have hfull : roundedNat m.toNat p mode ≥ 10 ^ 54 := by
      rw [← hspec, hcarry, Bool.toNat_true, Nat.one_mul]
      exact Nat.le_add_left _ _
    rw [if_pos rfl, if_pos hfull]
  | false =>
    rw [hcarry, Bool.toNat_false, Nat.zero_mul, Nat.add_zero] at hspec
    have hfit : roundedNat m.toNat p mode < 10 ^ 54 := hspec ▸ Mags.toNat_lt hrange
    rw [if_neg Bool.false_ne_true, if_neg (not_le.mpr hfit), ← limbs_toNat hrange, hspec, withSign_limbs _ _ hfit,
      Bool.or_false]

theorem round_eq_roundOnNat {x : Value} (hx : x.wf = true) (places : Int) (mode : Mode) :
    x.round switches places mode = x.roundOnNat places mode := by
  cases hnan : x.nan with
  | true => rw [round_of_nan switches hnan, Value.roundOnNat, if_pos hnan]
  | false =>
    obtain ⟨hm, -⟩ := wf_finite hx hnan
    have hlt := toNat_lt_of_wf hx hnan
    simp only [Value.round, Value.roundOnNat, hnan, Bool.false_eq_true, if_false, isZero_eq, decide_eq_true_eq]
    split
    · rfl
    · split
      · rw [← limbs_zero]
        exact (withSign_limbs false x.neg (by decide)).trans (by simp)
      next hpos =>
        split
        · rfl
        · split
          · rw [← limbs_toNat hm]
            exact (withSign_limbs false x.neg hlt).trans (by simp [hpos])
          · exact withSign_roundMags hm (by omega) mode x.neg

theorem exec_round {rd a : Reg} {s : State} (ha : (s.reg a).wf = true) (places : Int) (mode : Mode) :
    exec (.round rd a places mode) s = .next (s.setReg rd ((s.reg a).round switches places mode)) :=
  withSource_next (fun x => s.setReg rd (x.round switches places mode)) ha

/-- Settles O30: the source is well-formed, so the command runs, and its rounded limbs are those of the rounded
number. -/
theorem roundResult : Obligations.RoundResult := by
  intro rd a places mode s ha
  rw [exec_round ha, round_eq_roundOnNat ha]
  cases mode <;> rfl

end Sys2Proof.Machine
end

section
/-! QUANTA (45_divrem_quanta.md R161), and what DIVREM shares with it: the rounded quotient, said once on naturals
(`Value.countOnNat`, `round_div_eq_countOnNat`), and its product with the divisor (`Value.multipleOnNat`,
`countOnNat_mul`), which is QUANTA's result. -/

namespace Sys2Proof.Machine

open Config

/-! ### DIV on naturals, case by case (43_div.md R130) -/

@[simp] theorem neg_overflowValue (s u : Bool) : (overflowValue s u).neg = s := neg_packValue _ _ _ _ _

section
variable {x y : Value}

theorem quotientOnNat_of_nan (h : x.nan = true ∨ y.nan = true ∨ y.toNat = 0) : x.quotientOnNat y = nanValue :=
  if_pos h

theorem quotientOnNat_of_overflow (hnan : ¬ (x.nan = true ∨ y.nan = true ∨ y.toNat = 0))
    (h : x.ovf = true ∨ y.ovf = true ∨ x.toNat * 10 ^ 36 / y.toNat ≥ 10 ^ 54) :
    x.quotientOnNat y = overflowValue (Bool.xor x.neg y.neg) (x.unf || y.unf) := by
  simp only [Value.quotientOnNat, if_neg hnan]
  split
  · rfl
  next hovf => exact if_pos ((or_assoc.mpr h).resolve_left hovf)

theorem quotientOnNat_of_fits (hnan : ¬ (x.nan = true ∨ y.nan = true ∨ y.toNat = 0))
    (h : ¬ (x.ovf = true ∨ y.ovf = true ∨ x.toNat * 10 ^ 36 / y.toNat ≥ 10 ^ 54)) :
    ∃ u, x.quotientOnNat y =
      mkValue (Bool.xor x.neg y.neg && (decide (x.toNat * 10 ^ 36 / y.toNat ≠ 0) || u)) u
        (x.toNat * 10 ^ 36 / y.toNat) := by
  obtain ⟨hovf, hfull⟩ := not_or.mp (mt or_assoc.mp h)
  exact ⟨_, by simp only [Value.quotientOnNat, if_neg hnan, if_neg hovf, if_neg hfull]; rfl⟩

end

/-- The integer part of the scaled quotient is the quotient of the scaled numbers. -/
theorem scaled_quotient_div (X Y : Nat) : X * 10 ^ 36 / Y / 10 ^ 36 = X / Y := by
  rw [Nat.div_div_eq_div_mul, Nat.mul_div_mul_right _ _ (by positivity)]

theorem scaled_quotient_ge_iff (X Y : Nat) : X * 10 ^ 36 / Y ≥ 10 ^ 54 ↔ X / Y ≥ 10 ^ 18 := by
  rw [← scaled_quotient_div X Y]
  omega

/-! ### The multiple count: the quotient rounded to zero places (R160 line 3, R161 line 2) -/

/-- The scaled quotient `Q` rounded to a whole number. -/
def wholeCount (Q : Nat) (mode : Mode) : Nat := Q / 10 ^ 36 + if roundsUp Q 0 mode then 1 else 0

theorem roundedNat_zero_places (Q : Nat) (mode : Mode) : roundedNat Q 0 mode = wholeCount Q mode * 10 ^ 36 := rfl

theorem wholeCount_zero (mode : Mode) : wholeCount 0 mode = 0 := by
  cases mode <;> decide

theorem wholeCount_towards (X Y : Nat) : wholeCount (X * 10 ^ 36 / Y) .towards = X / Y := by
  rw [wholeCount, scaled_quotient_div]
  rfl

theorem wholeCount_ge {Q : Nat} (h : Q ≥ 10 ^ 54) (mode : Mode) : wholeCount Q mode ≥ 10 ^ 18 :=
  Nat.le_add_right_of_le (by omega)

/-- ROUND to zero places of a quotient `Q` in the form DIV gives it: its sign lasts as long as the count is not 0. -/
theorem round_mkValue_zero_places (sign u : Bool) {Q : Nat} (hQ : Q < 10 ^ 54) (mode : Mode) :
    (mkValue (sign && (decide (Q ≠ 0) || u)) u Q).roundOnNat 0 mode
      = if wholeCount Q mode ≥ 10 ^ 18 then overflowValue sign false
        else mkValue (sign && decide (wholeCount Q mode ≠ 0)) false (wholeCount Q mode * 10 ^ 36) := by
  have hfull : wholeCount Q mode * 10 ^ 36 ≥ 10 ^ 54 ↔ wholeCount Q mode ≥ 10 ^ 18 := by omega
  simp only [Value.roundOnNat, Int.toNat_zero, roundedNat_zero_places, toNat_mkValue _ _ hQ, hfull, nan_mkValue,
    ovf_mkValue, neg_mkValue]
  by_cases hz : Q = 0
  · simp [hz, wholeCount_zero]
  · simp [hz, -Nat.reducePow]

/-- The rounded quotient on naturals: the count with the XOR sign. -/
def Value.countOnNat (x y : Value) (mode : Mode) : Value :=
  let sign := Bool.xor x.neg y.neg
  let k := wholeCount (x.toNat * 10 ^ 36 / y.toNat) mode
  if x.nan = true ∨ y.nan = true ∨ y.toNat = 0 then nanValue
  else if x.ovf = true ∨ y.ovf = true ∨ k ≥ 10 ^ 18 then overflowValue sign false
  else mkValue (sign && decide (k ≠ 0)) false (k * 10 ^ 36)

theorem round_div_eq_countOnNat (x y : Value) (mode : Mode) :
    (x.div y).round switches 0 mode = x.countOnNat y mode := by
  rw [round_eq_roundOnNat (isResult_div x y).wf, div_eq_quotientOnNat, Value.countOnNat]
  by_cases hnan : x.nan = true ∨ y.nan = true ∨ y.toNat = 0
  · rw [quotientOnNat_of_nan hnan, if_pos hnan, Value.roundOnNat, if_pos nan_nanValue]
  rw [if_neg hnan]
  by_cases hovf : x.ovf = true ∨ y.ovf = true ∨ x.toNat * 10 ^ 36 / y.toNat ≥ 10 ^ 54
  · rw [quotientOnNat_of_overflow hnan hovf, if_pos (hovf.imp_right (.imp_right (wholeCount_ge · mode)))]
    simp [Value.roundOnNat]
  · obtain ⟨u, hquot⟩ := quotientOnNat_of_fits hnan hovf
    obtain ⟨hox, hoy, hfit⟩ : x.ovf = false ∧ y.ovf = false ∧ x.toNat * 10 ^ 36 / y.toNat < 10 ^ 54 := by
      simpa only [not_or, Bool.not_eq_true, not_le, ge_iff_le] using hovf
    simp only [hquot, round_mkValue_zero_places _ u hfit mode, hox, hoy, Bool.false_eq_true, false_or]

/-! ### The multiple: the count times the divisor (R160 line 4, R161 line 3) -/

/-- The count times `y` on naturals: the signs of the count and of `y` make `x`'s. -/
def Value.multipleOnNat (x y : Value) (mode : Mode) : Value :=
  let k := wholeCount (x.toNat * 10 ^ 36 / y.toNat) mode
  if x.nan = true ∨ y.nan = true ∨ y.toNat = 0 then nanValue
  else if x.ovf = true ∨ y.ovf = true ∨ k ≥ 10 ^ 18 ∨ k * y.toNat ≥ 10 ^ 54 then overflowValue x.neg false
  else mkValue (x.neg && decide (k ≠ 0)) false (k * y.toNat)

/-- MUL of a whole number: the product is exact, so it takes no underflow, and a zero takes no sign. -/
theorem productOnNat_mkValue_whole (sign : Bool) {k : Nat} (hk : k < 10 ^ 18) {y : Value} (hny : y.nan = false)
    (hoy : y.ovf = false) (hy0 : y.toNat ≠ 0) :
    (mkValue (sign && decide (k ≠ 0)) false (k * 10 ^ 36)).productOnNat y false
      = if k * y.toNat ≥ 10 ^ 54 then overflowValue (Bool.xor sign y.neg) false
        else mkValue (Bool.xor sign y.neg && decide (k ≠ 0)) false (k * y.toNat) := by
  have hN : (mkValue (sign && decide (k ≠ 0)) false (k * 10 ^ 36)).toNat = k * 10 ^ 36 := toNat_mkValue _ _ (by omega)
  have hP : k * 10 ^ 36 * y.toNat = k * y.toNat * 10 ^ 36 := Nat.mul_right_comm _ _ _
  have hexact : k * y.toNat * 10 ^ 36 % 10 ^ 36 = 0 := Nat.mul_mod_left _ _
  have htrunc : k * y.toNat * 10 ^ 36 / 10 ^ 36 = k * y.toNat := Nat.mul_div_cancel _ (by positivity)
  have hfull : k * y.toNat * 10 ^ 36 / 10 ^ 90 ≠ 0 ↔ k * y.toNat ≥ 10 ^ 54 := by omega
  simp only [Value.productOnNat, hN, hP, hexact, htrunc, hfull, hny, hoy, nan_mkValue, ovf_mkValue, neg_mkValue]
  by_cases hk0 : k = 0
  · simp [hk0]
  · simp [hk0, hy0, -Nat.reducePow]

theorem countOnNat_mul {y : Value} (x : Value) (hy : y.wf = true) (mode : Mode) :
    (x.countOnNat y mode).mul switches y = x.multipleOnNat y mode := by
  have hwf : (x.countOnNat y mode).wf = true :=
    round_div_eq_countOnNat x y mode ▸ (isResult_round switches (isResult_div x y).wf 0 mode).wf
  rw [mul_eq_productOnNat_false rfl hwf hy]
  simp only [Value.countOnNat, Value.multipleOnNat]
  by_cases hnan : x.nan = true ∨ y.nan = true ∨ y.toNat = 0
  · rw [if_pos hnan, if_pos hnan, productOnNat_of_nan (.inl nan_nanValue)]
  rw [if_neg hnan, if_neg hnan]
  obtain ⟨-, hny, hy0⟩ : x.nan = false ∧ y.nan = false ∧ y.toNat ≠ 0 := by simpa using hnan
  generalize wholeCount (x.toNat * 10 ^ 36 / y.toNat) mode = k
  by_cases hovf : x.ovf = true ∨ y.ovf = true ∨ k ≥ 10 ^ 18
  · rw [if_pos hovf, if_pos (hovf.imp_right (.imp_right .inl))]
    simp [Value.productOnNat, hny, hy0, overflowValue]
  · obtain ⟨hox, hoy, hk⟩ : x.ovf = false ∧ y.ovf = false ∧ k < 10 ^ 18 := by
      simpa only [not_or, Bool.not_eq_true, not_le, ge_iff_le] using hovf
    rw [if_neg hovf, productOnNat_mkValue_whole _ hk hny hoy hy0, Bool.xor_assoc, Bool.xor_self,
      Bool.xor_false]
    simp only [hox, hoy, not_le.mpr hk, ge_iff_le, Bool.false_eq_true, false_or]

/-! ### QUANTA (R161) -/

theorem quanta_eq_multipleOnNat (x : Value) {y : Value} (hy : y.wf = true) (mode : Mode) :
    x.quanta switches y mode = x.multipleOnNat y mode := by
  rw [Value.quanta, round_div_eq_countOnNat, countOnNat_mul x hy]

theorem exec_quanta {rd a b : Reg} {s : State} (ha : (s.reg a).wf = true) (hb : (s.reg b).wf = true) (mode : Mode) :
    exec (.quanta rd a b mode) s = .next (s.setReg rd ((s.reg a).quanta switches (s.reg b) mode)) :=
  withSources_next (fun x y => s.setReg rd (x.quanta switches y mode)) ha hb

/-- Settles O33: both sources are well-formed, so the command runs, and its result is the multiple on naturals. -/
theorem quantaResult : Obligations.QuantaResult := by
  intro rd a b mode s ha hb
  rw [exec_quanta ha hb, quanta_eq_multipleOnNat _ hb]
  cases mode <;> rfl

end Sys2Proof.Machine
end

section
/-! DIVREM (45_divrem_quanta.md R160, R162). The remainder is what the truncated count's multiple leaves of the dividend
(`sub_part`, `divrem_eq`), and the two add up to the dividend (`count_mul_add_remainder`). -/

namespace Sys2Proof.Machine

open Config

/-! ### Where DIVREM has no quotient (R160 line 2) -/

/-- Where DIVREM gives NaN in both registers. -/
def Value.NoQuotient (x y : Value) : Prop :=
  x.nan = true ∨ y.nan = true ∨ y.toNat = 0 ∨ x.ovf = true ∨ y.ovf = true ∨ x.toNat / y.toNat ≥ 10 ^ 18

theorem bounds_of_not_noQuotient {x y : Value} (h : ¬ x.NoQuotient y) :
    x.nan = false ∧ y.nan = false ∧ y.toNat ≠ 0 ∧ x.ovf = false ∧ y.ovf = false ∧ x.toNat / y.toNat < 10 ^ 18 := by
  simpa only [Value.NoQuotient, not_or, Bool.not_eq_true, not_le, ge_iff_le] using h

theorem div_nan_or_ovf_iff (x y : Value) : (x.div y).nan = true ∨ (x.div y).ovf = true ↔ x.NoQuotient y := by
  have hsplit : x.NoQuotient y ↔ (x.nan = true ∨ y.nan = true ∨ y.toNat = 0) ∨
      (x.ovf = true ∨ y.ovf = true ∨ x.toNat * 10 ^ 36 / y.toNat ≥ 10 ^ 54) := by
    simp only [Value.NoQuotient, scaled_quotient_ge_iff, or_assoc]
  rw [hsplit, div_eq_quotientOnNat]
  by_cases hnan : x.nan = true ∨ y.nan = true ∨ y.toNat = 0
  · simp only [quotientOnNat_of_nan hnan, nan_nanValue, hnan, true_or]
  by_cases hovf : x.ovf = true ∨ y.ovf = true ∨ x.toNat * 10 ^ 36 / y.toNat ≥ 10 ^ 54
  · simp only [quotientOnNat_of_overflow hnan hovf, ovf_overflowValue, hovf, or_true]
  · obtain ⟨u, hquot⟩ := quotientOnNat_of_fits hnan hovf
    simp only [hquot, nan_mkValue, ovf_mkValue, hnan, hovf, Bool.false_eq_true, or_self]

/-! ### Parts of a number with its sign (R110, R111) -/

/-- The underflow of what a subtraction leaves of `x` at magnitude `m`: `x`'s, but for the exact zero of ADD's line 12
(R110). -/
def Value.remainderUnf (x : Value) (m : Nat) : Bool :=
  x.unf && (decide (m ≠ 0) || (decide (x.toNat = 0) && !x.neg))

/-- What a subtraction of a part of `x` leaves, at magnitude `m`. -/
def Value.remainderOnNat (x : Value) (m : Nat) : Value :=
  mkValue (x.neg && decide (m ≠ 0)) (x.remainderUnf m) m

/-- The remainder in the cases of R160: nonzero, a non-negative zero dividend's, an exact zero. -/
theorem remainderOnNat_eq_ite (x : Value) (m : Nat) :
    x.remainderOnNat m =
      if m ≠ 0 then mkValue x.neg x.unf m
      else if x.toNat = 0 ∧ x.neg = false then mkValue false x.unf 0
      else zeroValue := by
  simp only [Value.remainderOnNat, Value.remainderUnf]
  split
  next hm => simp [hm]
  next hm =>
    obtain rfl : m = 0 := not_not.mp hm
    split
    next hzero => simp [hzero]
    next hzero =>
      have hexact : (decide (x.toNat = 0) && !x.neg) = false := by simpa using hzero
      simp [hexact]

theorem wf_mkValue_sign (s u : Bool) {n : Nat} (h : n < 10 ^ 54) : (mkValue (s && decide (n ≠ 0)) u n).wf = true := by
  refine wf_packValue_finite (inRange_limbs n) fun hs hz => ?_
  rw [Mags.isZero_iff_toNat, toNat_limbs h] at hz
  simp [hz] at hs

/-- A part of `x` with `x`'s sign, a zero part without one, taken off `x`. -/
theorem sub_part {x : Value} (hx : x.wf = true) (hnan : x.nan = false) (hovf : x.ovf = false) {P : Nat}
    (hP : P ≤ x.toNat) :
    x.sub (mkValue (x.neg && decide (P ≠ 0)) false P) = x.remainderOnNat (x.toNat - P) := by
  have hlt := toNat_lt_of_wf hx hnan
  have hN : (mkValue (x.neg && decide (P ≠ 0)) false P).toNat = P := toNat_mkValue _ _ (hP.trans_lt hlt)
  rw [sub_eq_sumOnNat hx (wf_mkValue_sign _ _ (hP.trans_lt hlt)), remainderOnNat_eq_ite]
  simp only [Value.sumOnNat, Value.negatedSign, hN, hnan, hovf, nan_mkValue, ovf_mkValue, unf_mkValue, neg_mkValue,
    Bool.or_false, Bool.false_eq_true, or_self, if_false, and_true]
  by_cases hP0 : P = 0
  · -- NEG keeps the sign of an exact zero, so a non-negative `x` is added to 0
    by_cases hX0 : x.toNat = 0
    · cases hneg : x.neg <;> simp [hP0, hX0]
    · cases hneg : x.neg <;> simp [hP0, hX0, Nat.pos_of_ne_zero hX0, hlt.not_ge, -Nat.reducePow]
  · -- the signs differ and `P` is the smaller magnitude
    have hsigns : ¬ x.neg = !(x.neg && decide (P ≠ 0)) := by simp [hP0]
    rw [if_neg hP0, if_neg hsigns]
    rcases hP.eq_or_lt with heq | hgt
    · rw [if_pos heq.symm, heq, Nat.sub_self, if_neg (not_not.mpr rfl), if_neg fun h => hP0 (heq.trans h.1)]
    · rw [if_neg hgt.ne', if_pos hgt, if_pos (Nat.sub_pos_of_lt hgt).ne']

/-- Two parts of one number, each with the number's sign unless it is zero, add up to the number. -/
theorem add_parts (s u v : Bool) {P m : Nat} (hfit : P + m < 10 ^ 54) :
    (mkValue (s && decide (P ≠ 0)) u P).add (mkValue (s && decide (m ≠ 0)) v m)
      = mkValue (s && decide (P + m ≠ 0)) (u || v) (P + m) := by
  have hP := (Nat.le_add_right P m).trans_lt hfit
  have hm := (Nat.le_add_left m P).trans_lt hfit
  rw [add_eq_sumOnNat (wf_mkValue_sign s u hP) (wf_mkValue_sign s v hm)]
  simp only [Value.sumOnNat, toNat_mkValue _ _ hP, toNat_mkValue _ _ hm, nan_mkValue, ovf_mkValue, unf_mkValue,
    neg_mkValue, Bool.false_eq_true, or_self, if_false, if_neg (not_le.mpr hfit)]
  -- the signs differ only when one part is zero and the other is not
  rcases Nat.eq_zero_or_pos P with rfl | hP0 <;> rcases Nat.eq_zero_or_pos m with rfl | hm0
  · simp
  · cases s <;> simp [hm0.ne', hm0.ne]
  · cases s <;> simp [hP0.ne', hP0]
  · simp [hP0.ne', hm0.ne']

/-! ### DIVREM on naturals (R160) -/

section
variable {x y : Value} (hx : x.wf = true) (hq : ¬ x.NoQuotient y)
include hq

theorem countOnNat_towards :
    x.countOnNat y .towards =
      mkValue (Bool.xor x.neg y.neg && decide (x.toNat / y.toNat ≠ 0)) false (x.toNat / y.toNat * 10 ^ 36) := by
  simp only [Value.NoQuotient, not_or] at hq
  simp [Value.countOnNat, wholeCount_towards, hq, -Nat.reducePow]

include hx

/-- A truncated count's multiple stays below the dividend, so it cannot overflow. -/
theorem multipleOnNat_towards :
    x.multipleOnNat y .towards =
      mkValue (x.neg && decide (x.toNat / y.toNat * y.toNat ≠ 0)) false (x.toNat / y.toNat * y.toNat) := by
  obtain ⟨hnx, hny, hy0, hox, hoy, hk⟩ := bounds_of_not_noQuotient hq
  have hfit : x.toNat / y.toNat * y.toNat < 10 ^ 54 := (Nat.div_mul_le_self _ _).trans_lt (toNat_lt_of_wf hx hnx)
  have hzero : x.toNat / y.toNat * y.toNat ≠ 0 ↔ x.toNat / y.toNat ≠ 0 := by
    rw [Nat.mul_ne_zero_iff, and_iff_left hy0]
  simp only [Value.multipleOnNat, wholeCount_towards, hnx, hny, hy0, hox, hoy, not_le.mpr hk, not_le.mpr hfit,
    hzero, Bool.false_eq_true, or_self, if_false]

theorem divrem_eq (hy : y.wf = true) :
    x.divrem switches y = (x.countOnNat y .towards, x.remainderOnNat (x.toNat % y.toNat)) := by
  have hdiv : ¬ ((x.div y).nan || (x.div y).ovf) = true := by
    rw [Bool.or_eq_true, div_nan_or_ovf_iff]
    exact hq
  have hmul := multipleOnNat_towards hx hq
  obtain ⟨hnx, -, -, hox, -⟩ := bounds_of_not_noQuotient hq
  simp only [Value.divrem, if_neg hdiv, round_div_eq_countOnNat, countOnNat_mul x hy, hmul]
  rw [sub_part hx hnx hox (Nat.div_mul_le_self _ _), ← Nat.mod_eq_sub_div_mul]

end

theorem divrem_of_noQuotient {x y : Value} (h : x.NoQuotient y) : x.divrem switches y = (nanValue, nanValue) :=
  if_pos (by rwa [Bool.or_eq_true, div_nan_or_ovf_iff])

theorem exec_divrem {rd rr a b : Reg} {s : State} (hne : rd ≠ rr) (ha : (s.reg a).wf = true)
    (hb : (s.reg b).wf = true) :
    exec (.divrem rd rr a b) s =
      .next ((s.setReg rd ((s.reg a).divrem switches (s.reg b)).1).setReg rr
        ((s.reg a).divrem switches (s.reg b)).2) :=
  (if_neg hne).trans
    (withSources_next (fun x y => (s.setReg rd (x.divrem switches y).1).setReg rr (x.divrem switches y).2) ha hb)

/-- Settles O31: both sources are well-formed, so the command runs, and its pair is the truncated count and what the
count's multiple leaves of the dividend. -/
theorem divremResult : Obligations.DivremResult := by
  intro rd rr a b s hne ha hb
  rw [exec_divrem hne ha hb]
  by_cases hq : (s.reg a).NoQuotient (s.reg b)
  · rw [divrem_of_noQuotient hq]
    exact congrArg _ (if_pos hq).symm
  · rw [divrem_eq ha hq hb, countOnNat_towards hq, remainderOnNat_eq_ite]
    exact congrArg _ (if_neg hq).symm

/-! ### The identity (R162) -/

theorem toNat_remainderOnNat (x : Value) {m : Nat} (h : m < 10 ^ 54) : (x.remainderOnNat m).toNat = m :=
  toNat_mkValue _ _ h

theorem eq_self_of_exact {x : Value} (hnan : x.nan = false) (hovf : x.ovf = false) (hunf : x.unf = false) :
    x.eq x = true := by
  simp [Value.eq, hnan, hovf, hunf]

/-- An exact value is its sign and its number: only a nonzero one is negative. -/
theorem mkValue_record_of_exact {x : Value} (hx : x.wf = true) (hnan : x.nan = false) (hovf : x.ovf = false)
    (hunf : x.unf = false) : mkValue (x.neg && decide (x.toNat ≠ 0)) false x.toNat = x := by
  have hsign : (x.neg && decide (x.toNat ≠ 0)) = x.neg := by
    rw [Bool.and_eq_left_iff_imp, decide_eq_true_iff]
    exact fun hneg => toNat_ne_zero_of_neg hx hnan hovf hneg fun h => by simp [h] at hunf
  rw [hsign, ← hunf, mkValue_record hx hnan hovf]

/-- R162: the count's multiple and the remainder add up to the dividend's number and sign. -/
theorem count_mul_add_remainder {x y : Value} (hx : x.wf = true) (hy : y.wf = true) (hq : ¬ x.NoQuotient y) :
    ((x.countOnNat y .towards).mul switches y).add (x.remainderOnNat (x.toNat % y.toNat)) =
      mkValue (x.neg && decide (x.toNat ≠ 0)) (x.remainderUnf (x.toNat % y.toNat)) x.toNat := by
  have hsum := Nat.div_add_mod' x.toNat y.toNat
  obtain ⟨hnx, -⟩ := bounds_of_not_noQuotient hq
  have hfit : x.toNat / y.toNat * y.toNat + x.toNat % y.toNat < 10 ^ 54 :=
    hsum.trans_lt (toNat_lt_of_wf hx hnx)
  rw [countOnNat_mul x hy, multipleOnNat_towards hx hq, Value.remainderOnNat, add_parts _ _ _ hfit, hsum,
    Bool.false_or]

/-- Settles O32: a quotient that is not NaN is the truncated count, and the count's multiple and the remainder add up to
the dividend. -/
theorem divremIdentity : Obligations.DivremIdentity := by
  intro x y hx hy q r z hqnan
  have hq : ¬ x.NoQuotient y := fun h => by simp [q, divrem_of_noQuotient h] at hqnan
  have hqv : q = x.countOnNat y .towards := congrArg Prod.fst (divrem_eq hx hq hy)
  have hrv : r = x.remainderOnNat (x.toNat % y.toNat) := congrArg Prod.snd (divrem_eq hx hq hy)
  have hz : z = mkValue (x.neg && decide (x.toNat ≠ 0)) (x.remainderUnf (x.toNat % y.toNat)) x.toNat := by
    rw [← count_mul_add_remainder hx hy hq, ← hqv, ← hrv]
  obtain ⟨hnx, hny, hy0, hox, hoy, hk⟩ := bounds_of_not_noQuotient hq
  have hX := toNat_lt_of_wf hx hnx
  have hm : x.toNat % y.toNat < 10 ^ 54 := (Nat.mod_le _ _).trans_lt hX
  have hqN : q.toNat = x.toNat / y.toNat * 10 ^ 36 := by
    rw [hqv, countOnNat_towards hq]
    exact toNat_mkValue _ _ (by omega)
  have hrN : r.toNat = x.toNat % y.toNat := hrv ▸ toNat_remainderOnNat x hm
  have hrnan : r.nan = false := by
    rw [hrv]
    exact nan_mkValue _ _ _
  refine ⟨hrnan, ?_, ?_, ?_, fun hr0 => ?_, hz ▸ nan_mkValue _ _ _, hz ▸ ovf_mkValue _ _ _,
    hz ▸ toNat_mkValue _ _ hX, fun hx0 => ?_, fun hxu _ => ?_⟩
  · rw [hqN, Nat.mul_mod_left]
  · rw [hrN]
    exact Nat.mod_lt _ (Nat.pos_of_ne_zero hy0)
  · rw [hqN, hrN, Nat.mul_div_cancel _ (by positivity), Nat.div_add_mod']
  · rw [hrN] at hr0
    rw [hrv]
    simp [Value.remainderOnNat, hr0]
  · rw [hz]
    simp [hx0]
  · have hzx : z = x := by
      rw [hz, Value.remainderUnf, hxu, Bool.false_and, mkValue_record_of_exact hx hnx hox hxu]
    rw [hzx]
    exact eq_self_of_exact hnx hox hxu

end Sys2Proof.Machine
end

section
/-! CMP and EQ (46_compare_equal.md R170, R171). The order of CMP is the order of one integer key per value
(`cmp_eq_sign_sub`), so that it is a total preorder follows from the integers. -/

namespace Sys2Proof.Machine

/-! ### CMP on naturals (R170) -/

/-- R170 lines 4 to 9, `c`: by overflow, then by `N`, then by underflow. -/
def Value.magOrder (x y : Value) : Int :=
  if x.ovf ≠ y.ovf then (if x.ovf then 1 else -1)
  else if x.toNat > y.toNat then 1
  else if x.toNat < y.toNat then -1
  else if x.unf = true ∧ y.unf = false then 1
  else if y.unf = true ∧ x.unf = false then -1
  else 0

theorem cmp_of_nan_left {x : Value} (y : Value) (h : x.nan = true) : x.cmp y = -1 := if_pos h

theorem cmp_of_nan_right {x y : Value} (hx : x.nan = false) (hy : y.nan = true) : x.cmp y = 1 := by
  simp [Value.cmp, hx, hy]

/-- R170 lines 3 to 10: signs decide first, and a negative sign inverts the order of the magnitudes, which line 6 compares
limb by limb. -/
theorem cmp_eq_magOrder {x y : Value} (hx : x.wf = true) (hy : y.wf = true) (hnx : x.nan = false)
    (hny : y.nan = false) : x.cmp y =
    if x.neg ≠ y.neg then (if x.neg then -1 else 1) else if x.neg then -x.magOrder y else x.magOrder y := by
  obtain ⟨hmx, -⟩ := wf_finite hx hnx
  obtain ⟨hmy, -⟩ := wf_finite hy hny
  have hmag : (if cmpMag x.mags y.mags = 0 then (if x.unf && !y.unf then 1 else if y.unf && !x.unf then -1 else 0)
        else cmpMag x.mags y.mags : Int) =
      if x.toNat > y.toNat then 1 else if x.toNat < y.toNat then -1
      else if x.unf = true ∧ y.unf = false then 1 else if y.unf = true ∧ x.unf = false then -1 else 0 := by
    simp only [cmpMag_spec hmx hmy, toNat_mags, Bool.and_eq_true, Bool.not_eq_true']
    rcases Nat.lt_trichotomy x.toNat y.toNat with h | h | h
    · simp [h, h.not_gt]
    · simp [h]
    · simp [h]
  simp only [Value.cmp, Value.magOrder, hnx, hny, Bool.false_eq_true, if_false, hmag]

theorem exec_cmp {a b : Reg} {s : State} (ha : (s.reg a).wf = true) (hb : (s.reg b).wf = true) :
    exec (.cmp a b) s = .next (s.setRes (BitVec.ofInt 32 ((s.reg a).cmp (s.reg b)))) :=
  withSources_next (fun x y => s.setRes (BitVec.ofInt 32 (x.cmp y))) ha hb

/-- Settles O34: both sources are well-formed, so the command runs; a negative sign swaps the words of the order of the
magnitudes. -/
theorem cmpResult : Obligations.CmpResult := by
  intro a b s ha hb
  rw [exec_cmp ha hb]
  refine congrArg (fun w => Host.Outcome.next (s.setRes w)) ?_
  cases hnx : (s.reg a).nan with
  | true => rw [cmp_of_nan_left _ hnx]; rfl
  | false =>
    cases hny : (s.reg b).nan with
    | true => rw [cmp_of_nan_right hnx hny]; rfl
    | false =>
      rw [cmp_eq_magOrder ha hb hnx hny]
      cases hneg : (s.reg a).neg <;>
        simp only [Value.magOrder, apply_ite (BitVec.ofInt 32), apply_ite Neg.neg, Bool.false_eq_true, if_true,
          if_false] <;>
        rfl

/-! ### EQ (R171) -/

/-- EQ holds of one value twice, and of no value with a NaN, overflow or underflow flag. -/
theorem value_eq_iff (x y : Value) : x.eq y = true ↔
    (x.nan = false ∧ y.nan = false ∧ x.ovf = false ∧ y.ovf = false ∧ x.unf = false ∧ y.unf = false) ∧ x = y := by
  simp [Value.eq, and_assoc]

theorem Value.ext_limb_iff {x y : Value} : x = y ↔ ∀ j : Fin 6, x.limb j = y.limb j :=
  ⟨fun h _ => h ▸ rfl, Value.ext_limb⟩

/-- Well-formed values without flags are equal when their signs and their numbers are. -/
theorem ext_neg_toNat_iff {x y : Value} (hx : x.wf = true) (hy : y.wf = true) (hnx : x.nan = false)
    (hny : y.nan = false) (hox : x.ovf = false) (hoy : y.ovf = false) (hux : x.unf = false) (huy : y.unf = false) :
    x = y ↔ x.neg = y.neg ∧ x.toNat = y.toNat := by
  refine ⟨fun h => h ▸ ⟨rfl, rfl⟩, fun ⟨hneg, hN⟩ => ?_⟩
  rw [← mkValue_record hx hnx hox, ← mkValue_record hy hny hoy, hneg, hN, hux, huy]

theorem exec_eqCommand {a b : Reg} {s : State} (ha : (s.reg a).wf = true) (hb : (s.reg b).wf = true) :
    exec (.eq a b) s = .next (s.setRes (if (s.reg a).eq (s.reg b) then 1 else 0)) :=
  withSources_next (fun x y => s.setRes (if x.eq y then 1 else 0)) ha hb

/-- Settles O35: both sources are well-formed, so the command runs, and RES is 1 exactly when `Value.eq` holds. -/
theorem eqResult : Obligations.EqResult := by
  intro a b s ha hb x y usable
  have hone : (if x.eq y then 1 else 0 : Word) = 1 ↔ usable ∧ x = y := by
    rw [← value_eq_iff]
    cases x.eq y <;> simp
  refine ⟨if x.eq y then 1 else 0, exec_eqCommand ha hb, ?_, ?_, ?_⟩
  · cases x.eq y <;> simp
  · rw [hone, Value.ext_limb_iff]
  · rw [hone]
    exact and_congr_right fun ⟨hnx, hny, hox, hoy, hux, huy⟩ => ext_neg_toNat_iff ha hb hnx hny hox hoy hux huy

/-! ### The order of CMP (R170 (g), R171 (b)) -/

/-- Where a value stands among the magnitudes: an overflowed one above every number, an underflowed one between its
number and the next. -/
def Value.rank (x : Value) : Nat := 2 * (x.toNat + if x.ovf then 10 ^ 54 else 0) + x.unf.toNat

/-- Where a value that is not NaN stands in the order of CMP. -/
def Value.orderKey (x : Value) : Int := if x.neg then -x.rank else x.rank

/-- There is no negative exact zero (R25 (d)). -/
theorem rank_pos_of_neg {x : Value} (hx : x.wf = true) (hnan : x.nan = false) (hneg : x.neg = true) :
    0 < x.rank := by
  obtain ⟨-, -, -, hzero⟩ := wf_finite hx hnan
  by_cases h0 : x.toNat = 0
  · simp [Value.rank, hzero hneg ((Mags.isZero_iff_toNat _).mpr h0)]
  · unfold Value.rank
    omega

theorem sign_sub_eq_ite (m n : Nat) : (m - n : Int).sign = if m > n then 1 else if m < n then -1 else 0 := by
  rcases Nat.lt_trichotomy m n with h | h | h
  · rw [if_neg h.not_gt, if_pos h]
    exact Int.sign_eq_neg_one_of_neg (by omega)
  · simp [h]
  · rw [if_pos h]
    exact Int.sign_eq_one_of_pos (by omega)

section

variable {x y : Value} (hx : x.wf = true) (hy : y.wf = true) (hnx : x.nan = false) (hny : y.nan = false)
include hx hy hnx hny

/-- Ranks order by overflow, then by `N`, then by underflow. -/
theorem rank_lt_iff : x.rank < y.rank ↔
    (x.ovf = false ∧ y.ovf = true) ∨ (x.ovf = y.ovf ∧
      (x.toNat < y.toNat ∨ (x.toNat = y.toNat ∧ x.unf = false ∧ y.unf = true))) := by
  have hX := toNat_lt_of_wf hx hnx
  have hY := toNat_lt_of_wf hy hny
  have hUx := x.unf.toNat_le
  have hUy := y.unf.toNat_le
  have hunf : x.unf = false ∧ y.unf = true ↔ x.unf.toNat < y.unf.toNat := by
    cases x.unf <;> cases y.unf <;> decide
  rw [hunf, Value.rank, Value.rank]
  cases x.ovf <;> cases y.ovf <;> simp <;> omega

theorem magOrder_eq_sign_sub : x.magOrder y = (x.rank - y.rank : Int).sign := by
  simp only [sign_sub_eq_ite, gt_iff_lt, rank_lt_iff hx hy hnx hny, rank_lt_iff hy hx hny hnx, Value.magOrder]
  by_cases hovf : x.ovf = y.ovf
  · rcases Nat.lt_trichotomy x.toNat y.toNat with h | h | h
    · simp [hovf, h, h.not_gt, h.ne']
    · simp [hovf, h, and_comm]
    · simp [hovf, h]
  · cases hox : x.ovf <;> cases hoy : y.ovf <;> simp_all

/-- CMP compares keys: a negative value's key is below 0, and the key of any other is not. -/
theorem cmp_eq_sign_sub : x.cmp y = (x.orderKey - y.orderKey).sign := by
  rw [cmp_eq_magOrder hx hy hnx hny, magOrder_eq_sign_sub hx hy hnx hny]
  have hX := rank_pos_of_neg hx hnx
  have hY := rank_pos_of_neg hy hny
  cases hsx : x.neg <;> cases hsy : y.neg <;>
    simp only [Value.orderKey, hsx, hsy, Bool.false_eq_true, ne_eq, not_true, not_false_eq_true, reduceCtorEq,
      if_true, if_false]
  case false.true =>
    have := hY hsy
    exact (Int.sign_eq_one_of_pos (by omega)).symm
  case true.false =>
    have := hX hsx
    exact (Int.sign_eq_neg_one_of_neg (by omega)).symm
  case true.true =>
    rw [← Int.sign_neg]
    congr 1
    omega

theorem cmp_nonpos_iff : x.cmp y ≤ 0 ↔ x.orderKey ≤ y.orderKey := by
  rw [cmp_eq_sign_sub hx hy hnx hny, Int.sign_nonpos_iff, sub_nonpos]

end

/-- Settles O36: CMP orders by `Value.orderKey`, and EQ holds only of one value twice, whose keys are one. -/
theorem cmpIsTotalPreorder : Obligations.CmpIsTotalPreorder := by
  intro x y z hx hy hz hnx hny hnz
  refine ⟨?_, ?_, fun heq => ?_⟩
  · rw [cmp_eq_sign_sub hx hy hnx hny, cmp_eq_sign_sub hy hx hny hnx, ← Int.sign_neg, Int.neg_sub]
  · rw [cmp_nonpos_iff hx hy hnx hny, cmp_nonpos_iff hy hz hny hnz, cmp_nonpos_iff hx hz hnx hnz]
    exact le_trans
  · obtain ⟨-, rfl⟩ := (value_eq_iff x y).mp heq
    rw [cmp_eq_sign_sub hx hx hnx hnx, Int.sub_self, Int.sign_zero]

end Sys2Proof.Machine
end

section
/-! NEG and ABS (47_negate_abs.md R180, R181). On a value that is not NaN both are `Value.setNeg`, which replaces the
sign bit and keeps every other bit; the laws are those of the sign that is set. -/

namespace Sys2Proof.Machine

/-! ### A new sign bit -/

@[simp] theorem setNeg_setNeg (v : Value) (b c : Bool) : (v.setNeg b).setNeg c = v.setNeg c := by
  simp [Value.setNeg]

@[simp] theorem setNeg_neg_self (v : Value) : v.setNeg v.neg = v := by
  simp [Value.setNeg, Value.neg]

theorem limb_setNeg_of_ne_zero (v : Value) (b : Bool) {j : Fin 6} (hj : j ≠ 0) : (v.setNeg b).limb j = v.limb j :=
  limb_setLimb_ne v (setFlag v.limb0 b) hj

@[simp] theorem magnitude_limb0_setNeg (v : Value) (b : Bool) : magnitude (v.setNeg b).limb0 = magnitude v.limb0 :=
  BitVec.eq_of_toNat_eq (mag_setFlag v.limb0 b)

/-! ### The commands -/

theorem exec_neg {rd a : Reg} {s : State} (ha : (s.reg a).wf = true) :
    exec (.neg rd a) s = .next (s.setReg rd (s.reg a).negate) :=
  withSource_next (fun x => s.setReg rd x.negate) ha

theorem exec_abs {rd a : Reg} {s : State} (ha : (s.reg a).wf = true) :
    exec (.abs rd a) s = .next (s.setReg rd (s.reg a).abs) :=
  withSource_next (fun x => s.setReg rd x.abs) ha

/-- NEG in place of a register just written. -/
theorem exec_neg_setReg (rd : Reg) (s : State) {v : Value} (hv : v.wf = true) :
    exec (.neg rd rd) (s.setReg rd v) = .next (s.setReg rd v.negate) := by
  rw [exec_neg (by rwa [reg_setReg_self]), reg_setReg_self, setReg_setReg]

/-- ABS in place of a register just written. -/
theorem exec_abs_setReg (rd : Reg) (s : State) {v : Value} (hv : v.wf = true) :
    exec (.abs rd rd) (s.setReg rd v) = .next (s.setReg rd v.abs) := by
  rw [exec_abs (by rwa [reg_setReg_self]), reg_setReg_self, setReg_setReg]

theorem abs_eq_setNeg {x : Value} (hnan : x.nan = false) : x.abs = x.setNeg false :=
  if_neg (by simp [hnan])

/-- Settles O37: NEG of a value that is not NaN sets the sign `Value.negatedSign` and nothing else. -/
theorem negResult : Obligations.NegResult := by
  intro rd a s ha x
  refine ⟨x.negate, exec_neg ha, negate_of_nan, fun hnan => ?_⟩
  rw [negate_eq_setNeg ha hnan]
  exact ⟨fun _ => limb_setNeg_of_ne_zero x _, magnitude_limb0_setNeg x _, neg_setNeg x _⟩

/-- Settles O38: ABS of a value that is not NaN sets the sign 0 and nothing else. -/
theorem absResult : Obligations.AbsResult := by
  intro rd a s ha x
  refine ⟨x.abs, exec_abs ha, abs_of_nan, fun hnan => ?_⟩
  rw [abs_eq_setNeg hnan]
  exact ⟨fun _ => limb_setNeg_of_ne_zero x _, magnitude_limb0_setNeg x _, neg_setNeg x _⟩

/-! ### The laws (R180 (d), R181 (c)) -/

@[simp] theorem negatedSign_setNeg (x : Value) (b : Bool) :
    (x.setNeg b).negatedSign = if x.toNat = 0 ∧ x.unf = false then false else !b := by
  simp only [Value.negatedSign, toNat_setNeg, unf_setNeg, neg_setNeg]

/-- NEG's sign flips back: an exact zero, which NEG leaves non-negative, was non-negative before (R25 (d)). -/
theorem negatedSign_setNeg_negatedSign {x : Value} (hx : x.wf = true) (hnan : x.nan = false) :
    (x.setNeg x.negatedSign).negatedSign = x.neg := by
  obtain ⟨-, -, -, hnegZero⟩ := wf_finite hx hnan
  rw [negatedSign_setNeg]
  by_cases hexact : x.toNat = 0 ∧ x.unf = false
  · rw [if_pos hexact]
    have hzero : x.isZero = true := (Mags.isZero_iff_toNat x.mags).mpr hexact.1
    cases hneg : x.neg with
    | false => rfl
    | true => exact absurd (hnegZero hneg hzero) (by simp [hexact.2])
  · rw [if_neg hexact, Value.negatedSign, if_neg hexact, Bool.not_not]

theorem Value.negate_negate {x : Value} (hx : x.wf = true) (hnan : x.nan = false) : x.negate.negate = x := by
  have hneg := negate_eq_setNeg hx hnan
  have hwf : (x.setNeg x.negatedSign).wf = true := hneg ▸ (isResult_negate hx).wf
  rw [hneg, negate_eq_setNeg hwf (by rwa [nan_setNeg]), setNeg_setNeg, negatedSign_setNeg_negatedSign hx hnan,
    setNeg_neg_self]

theorem abs_setNeg {x : Value} (b : Bool) (hnan : x.nan = false) : (x.setNeg b).abs = x.abs := by
  rw [abs_eq_setNeg hnan, abs_eq_setNeg (by rwa [nan_setNeg]), setNeg_setNeg]

theorem Value.abs_abs {x : Value} (hnan : x.nan = false) : x.abs.abs = x.abs := by
  rw [abs_eq_setNeg hnan, abs_setNeg false hnan, abs_eq_setNeg hnan]

theorem Value.abs_negate {x : Value} (hx : x.wf = true) (hnan : x.nan = false) : x.negate.abs = x.abs := by
  rw [negate_eq_setNeg hx hnan, abs_setNeg _ hnan]

/-- Settles O39: both commands write well-formed values, so the second ones run too, and the laws are those of
`Value.negate` and `Value.abs`. -/
theorem negAbsLaws : Obligations.NegAbsLaws := by
  intro rd a s ha hnan
  have hwfNeg := (isResult_negate ha).wf
  have hwfAbs := (isResult_abs ha).wf
  refine ⟨_, _, _, _, _, exec_neg ha, exec_abs ha, exec_neg_setReg rd s hwfNeg, exec_abs_setReg rd s hwfAbs,
    exec_abs_setReg rd s hwfNeg, ?_, ?_, ?_⟩
  · rw [reg_setReg_self, Value.negate_negate ha hnan]
  · rw [reg_setReg_self, reg_setReg_self, Value.abs_abs hnan]
  · rw [reg_setReg_self, reg_setReg_self, Value.abs_negate ha hnan]

end Sys2Proof.Machine
end

section
/-! The obligation of 48_host_text_digits.md: a value survives its digit buffer (R205). `numberOf` reads back what
`fixedDigits` wrote; the zeros that `magnitudeDigits` strips, leading from the integer digits and trailing from the
fraction, do not change the number (R202, R204). -/

namespace Sys2Proof.Machine

open Config

/-! ### Decimal digits and the number they denote -/

theorem numberOf_eq_ofDigits (ds : List Nat) : numberOf ds = Nat.ofDigits 10 ds.reverse := by
  simp [numberOf, Nat.ofDigits_eq_foldr, add_comm]

theorem numberOf_append (l m : List Nat) : numberOf (l ++ m) = numberOf l * 10 ^ m.length + numberOf m := by
  simp only [numberOf_eq_ofDigits, List.reverse_append, Nat.ofDigits_append, List.length_reverse]
  ring

@[simp] theorem length_fixedDigits (k n : Nat) : (fixedDigits k n).length = k := by
  induction k generalizing n with
  | zero => rfl
  | succ k ih => simp [fixedDigits, ih]

@[simp] theorem numberOf_fixedDigits (k n : Nat) : numberOf (fixedDigits k n) = n % 10 ^ k := by
  induction k generalizing n with
  | zero => simp [fixedDigits, numberOf, Nat.mod_one]
  | succ k ih =>
    have hdigit : numberOf [n % 10] = n % 10 := by simp [numberOf]
    rw [fixedDigits, numberOf_append, ih, hdigit, Nat.pow_succ', Nat.mod_mul, List.length_singleton, pow_one]
    ring

/-! ### The zeros that are stripped (R202) -/

/-- Leading zeros denote nothing. -/
theorem numberOf_dropWhile_zero (ds : List Nat) : numberOf (ds.dropWhile (· == 0)) = numberOf ds := by
  induction ds with
  | nil => rfl
  | cons d ds ih =>
    cases d with
    | zero => exact ih
    | succ d => rfl

theorem takeWhile_zero_eq_replicate (ds : List Nat) :
    ds.takeWhile (· == 0) = List.replicate (ds.takeWhile (· == 0)).length 0 :=
  List.eq_replicate_iff.mpr ⟨rfl, fun _ hd => by simpa using List.mem_takeWhile_imp hd⟩

theorem exists_dropTrailingZeros_append (ds : List Nat) :
    ∃ n, dropTrailingZeros ds ++ List.replicate n 0 = ds :=
  ⟨(ds.reverse.takeWhile (· == 0)).length, by
    rw [dropTrailingZeros, ← List.reverse_replicate, ← takeWhile_zero_eq_replicate, ← List.reverse_append,
      List.takeWhile_append_dropWhile, List.reverse_reverse]⟩

/-- R204 fills the fraction with zeros up to its 36 places, and so puts back the trailing zeros that R202 strips. -/
theorem dropTrailingZeros_append_zeros (ds : List Nat) :
    dropTrailingZeros ds ++ List.replicate (ds.length - (dropTrailingZeros ds).length) 0 = ds := by
  obtain ⟨n, hn⟩ := exists_dropTrailingZeros_append ds
  have hlen : (dropTrailingZeros ds).length + n = ds.length := by
    simpa using congrArg List.length hn
  rw [← hlen, Nat.add_sub_cancel_left, hn]

theorem length_dropTrailingZeros_le (ds : List Nat) : (dropTrailingZeros ds).length ≤ ds.length := by
  simpa [dropTrailingZeros] using List.length_dropWhile_le (· == 0) ds.reverse

/-! ### The digits of a value (R202) -/

/-- The integer digits that `toDigits` writes. -/
def Mags.integerDigits (m : Mags) : List Nat := (fixedDigits 18 (m.m0 * radix + m.m1)).dropWhile (· == 0)

/-- The fractional digits of which `toDigits` writes all but the trailing zeros. -/
def Mags.fractionDigits (m : Mags) : List Nat :=
  fixedDigits 9 m.m2 ++ fixedDigits 9 m.m3 ++ fixedDigits 9 m.m4 ++ fixedDigits 9 m.m5

theorem toDigits_of_not_nan {v : Value} (h : v.nan = false) :
    toDigits v =
      { neg := v.neg, nan := false, ovf := v.ovf, unf := v.unf, pointIndex := v.mags.integerDigits.length
        digits := v.mags.integerDigits ++ dropTrailingZeros v.mags.fractionDigits } := by
  simp only [toDigits, h, Bool.false_eq_true, if_false, magnitudeDigits, Mags.integerDigits, Mags.fractionDigits]

theorem length_integerDigits_le (m : Mags) : m.integerDigits.length ≤ 18 := by
  simpa [Mags.integerDigits] using List.length_dropWhile_le (· == 0) (fixedDigits 18 (m.m0 * radix + m.m1))

theorem length_fractionDigits (m : Mags) : m.fractionDigits.length = fracDigits := by
  simp [Mags.fractionDigits]

/-- The digits on either side of the point make up `N` (00_scope.md R10). -/
theorem numberOf_integer_fraction {m : Mags} (h : m.inRange = true) :
    numberOf m.integerDigits * fracScale + numberOf m.fractionDigits = m.toNat := by
  rw [Mags.inRange_iff] at h
  simp only [Mags.integerDigits, Mags.fractionDigits, numberOf_dropWhile_zero, numberOf_append, numberOf_fixedDigits,
    length_fixedDigits, Mags.toNat, radix, fracScale] at h ⊢
  omega

/-! ### The value of a buffer (R204) -/

/-- A buffer of at most 18 integer digits and of 36 fractional digits without their trailing zeros loses nothing. -/
theorem toFixedDecimal_of_digits (s u : Bool) {int frac : List Nat} {n : Nat} (hint : int.length ≤ 18)
    (hfrac : frac.length = fracDigits) (hn : numberOf int * fracScale + numberOf frac = n) :
    toFixedDecimal { neg := s, nan := false, ovf := false, unf := u, pointIndex := int.length
                     digits := int ++ dropTrailingZeros frac } = mkValue s u n := by
  have hlen : (dropTrailingZeros frac).length ≤ fracDigits := hfrac ▸ length_dropTrailingZeros_le frac
  have hfill : dropTrailingZeros frac ++ List.replicate (fracDigits - (dropTrailingZeros frac).length) 0 = frac :=
    hfrac ▸ dropTrailingZeros_append_zeros frac
  simp [toFixedDecimal, Nat.not_lt.mpr hint, Nat.not_lt.mpr hlen, List.take_of_length_le hlen, hfill, hn, mkValue]

/-! ### The round trip (R205) -/

theorem toFixedDecimal_toDigits_of_nan {v : Value} (h : v.nan = true) :
    toFixedDecimal (toDigits v) = packValue v.neg true false false zeroMags := by
  rw [toDigits, if_pos h]
  rfl

/-- An overflowed value holds the canonical maximum, which R204 writes for the overflow flag alone. -/
theorem toFixedDecimal_toDigits_of_ovf {v : Value} (hwf : v.wf = true) (hnan : v.nan = false) (hovf : v.ovf = true) :
    toFixedDecimal (toDigits v) = v := by
  have h : toFixedDecimal (toDigits v) = overflowValue v.neg v.unf := by
    simp [toDigits_of_not_nan hnan, toFixedDecimal, hovf]
  rw [h, overflowValue_record hwf hnan hovf]

theorem toFixedDecimal_toDigits_of_finite {v : Value} (hwf : v.wf = true) (hnan : v.nan = false) (hovf : v.ovf = false) :
    toFixedDecimal (toDigits v) = v := by
  obtain ⟨hrange, -, -, -⟩ := wf_finite hwf hnan
  rw [toDigits_of_not_nan hnan, hovf, toFixedDecimal_of_digits v.neg v.unf (length_integerDigits_le v.mags)
    (length_fractionDigits v.mags) (numberOf_integer_fraction hrange)]
  exact mkValue_record hwf hnan hovf

/-- Settles O40: NaN, overflow and finite values, each by its own lemma. -/
theorem digitsRoundTrip : Obligations.DigitsRoundTrip := by
  intro v hwf
  cases hnan : v.nan with
  | true => exact toFixedDecimal_toDigits_of_nan hnan
  | false =>
    cases hovf : v.ovf with
    | true => exact toFixedDecimal_toDigits_of_ovf hwf hnan hovf
    | false => exact toFixedDecimal_toDigits_of_finite hwf hnan hovf

end Sys2Proof.Machine
end

section
/-! The obligations of 60_exceptions.md and 70_reset_and_hazards.md: a step of an idle host holds the state (R242), only
a reset clears `STATUS.ILL` (R235), no operand stops a command (R230), and a host that keeps R251 never meets a stop: each
of its actions runs to its end and leaves every register well-formed (`run_action`). -/

namespace Sys2Proof.Machine

/-! ### Idle steps, `STATUS.ILL` and completion (R242, R235, R230) -/

/-- Settles O6: the step of a host that has nothing to do. -/
theorem idleStepHoldsState : Obligations.IdleStepHoldsState :=
  fun _ h => step_nil h

/-- Only a reset clears `STATUS.ILL`. -/
theorem runEvent_keeps_ill {e : HostEvent} {s t : State} (hs : s.ill = true) (hne : e ≠ .reset)
    (h : runEvent e s = .next t) : t.ill = true := by
  obtain ⟨off, -, rfl⟩ | ⟨c, i, -, -, -, rfl⟩ | ⟨c, why, -, -, rfl⟩ | ⟨off, w, -, -, rfl⟩ | ⟨he, -⟩ :=
    runEvent_next_cases h
  · exact hs
  · rw [ill_afterCommand, hs]
  · exact ill_raiseIll s
  · obtain ⟨-, hill, -, -⟩ := writeWord_frame s off w
    rw [hill, hs]
  · exact absurd he hne

/-- Settles O11: an idle step holds the state, every event but a reset keeps the bit, and a reset clears it. -/
theorem onlyResetClearsIll : Obligations.OnlyResetClearsIll := by
  intro s t h hs
  constructor
  · intro hne
    obtain ⟨-, rfl⟩ | ⟨e, rest, hhost, hrun⟩ := step_next_cases h
    · exact hs
    · exact runEvent_keeps_ill (s := s.takeEvent rest) hs (fun he => hne rest (he ▸ hhost)) hrun
  · rintro ⟨rest, hhost⟩
    rw [step_reset hhost] at h
    rw [← Host.Outcome.next.inj h, ill_doReset]

/-- Settles O18: with its sources well-formed a command answers `State.afterCommand`. -/
theorem wellFormedSourcesComplete : Obligations.WellFormedSourcesComplete :=
  fun _ _ hi hs => ⟨_, (exec_eq_next_iff hi).mpr ⟨hs, rfl⟩⟩

/-! ### Runs -/

theorem run_add {M : Host.Core} {m : Nat} {s t : M.State} (h : M.run m s = .next t) (n : Nat) :
    M.run (m + n) s = M.run n t := by
  induction m generalizing s with
  | zero =>
    cases h
    rw [Nat.zero_add]
  | succ m ih =>
    rw [Nat.succ_add]
    cases hs : M.step s with
    | next u =>
      simp only [Host.Core.run, hs] at h ⊢
      exact ih h
    | fault r => simp [Host.Core.run, hs] at h
    | refused r => simp [Host.Core.run, hs] at h

theorem run_one {s t : State} (h : step s = .next t) : Host.Core.run core 1 s = .next t := by
  simp only [Host.Core.run, core, h]

/-! ### What keeps every register well-formed (40_value_primitives.md R97) -/

theorem afterCommand_allWf {i : Instr} {s : State} (hi : i.wf = true) (hs : AllWf s) : AllWf (s.afterCommand i) := by
  intro q
  by_cases hq : q ∈ destsOf i
  · exact (isResult_afterCommand hi (fun r _ => hs r) q hq).wf
  · rw [reg_afterCommand_of_notMem hq]
    exact hs q

theorem setReg_allWf {s : State} (hs : AllWf s) (r : Reg) {v : Value} (hv : v.wf = true) : AllWf (s.setReg r v) := by
  intro q
  rw [reg_setReg]
  split
  · exact hv
  · exact hs q

/-- A command word, legal or not, never stops the machine when every register is well-formed. -/
theorem issue_allWf (c : Word) {s : State} (hs : AllWf s) :
    ∃ t, issue c s = .next t ∧ AllWf t ∧ t.host = s.host := by
  cases hdec : decode c with
  | ok i =>
    have hi := decode_wf hdec
    exact ⟨s.afterCommand i, by rw [issue_ok hdec, exec_eq_next_iff hi]; exact ⟨fun r _ => hs r, rfl⟩,
      afterCommand_allWf hi hs, host_afterCommand s i⟩
  | error why => exact ⟨s.raiseIll, issue_error hdec s, hs, host_raiseIll s⟩

/-! ### A host that keeps its obligations (R251) -/

/-- RES, STATUS and the reserved offsets ignore what is written. -/
theorem disciplined_ignoredWrite {off : Nat} {w : Word} (h : (HostAction.ignoredWrite off w).disciplined = true) :
    isTransaction off = true ∧ locate off ≠ .cmd ∧ ∀ s : State, s.writeWord off w = s := by
  obtain ⟨ht, hloc⟩ : isTransaction off = true ∧
      ((locate off = .res ∨ locate off = .status) ∨ locate off = .reserved) := by
    simpa [HostAction.disciplined] using h
  obtain (hloc | hloc) | hloc := hloc <;> simp [ht, State.writeWord, hloc]

/-- The events of one disciplined action run to their end. -/
theorem run_action {a : HostAction} {s : State} {rest : List HostEvent} (ha : a.disciplined = true) (hs : AllWf s)
    (hhost : s.host = a.events ++ rest) :
    ∃ t, Host.Core.run core a.events.length s = .next t ∧ AllWf t ∧ t.host = rest := by
  cases a with
  | load r v => exact ⟨_, loadValueFillsRegister s r v rest hhost, setReg_allWf hs r ha, rfl⟩
  | issue c =>
    obtain ⟨t, hissue, ht, hrest⟩ := issue_allWf c (s := s.takeEvent rest) hs
    exact ⟨t, run_one ((step_busWrite_cmd hhost).trans hissue), ht, hrest⟩
  | read off => exact ⟨_, run_one (step_busRead hhost ha), hs, rfl⟩
  | ignoredWrite off w =>
    obtain ⟨htrans, hcmd, hself⟩ := disciplined_ignoredWrite ha
    have hstep := step_busWrite_of_ne_cmd (rest := rest) hhost htrans hcmd
    rw [hself] at hstep
    exact ⟨_, run_one hstep, hs, rfl⟩
  | reset => exact ⟨_, run_one (step_reset hhost), fun r => by rw [reg_doReset, wf_zeroValue], rfl⟩

/-- Settles O16, by induction on the list of actions, each run by `run_action`. -/
theorem disciplinedHostNeverStops : Obligations.DisciplinedHostNeverStops := by
  intro acts
  induction acts with
  | nil =>
    intro s hs _ hhost
    have hnil : s.host = [] := hhost
    exact ⟨s, by rw [hnil]; rfl, hs, hnil⟩
  | cons a acts ih =>
    intro s hs hdisc hhost
    rw [List.flatMap_cons] at hhost
    obtain ⟨ha, hacts⟩ := List.forall_mem_cons.mp hdisc
    obtain ⟨u, hrun, hu, huhost⟩ := run_action ha hs hhost
    obtain ⟨t, hrest, ht, hdone⟩ := ih u hu hacts huhost
    refine ⟨t, ?_, ht, hdone⟩
    rw [hhost, List.length_append, run_add hrun, ← huhost, hrest]

end Sys2Proof.Machine
end
